-- ==== Sys2Proof/Word.lean ====
section
/-! DEFINITION. The word type of the vm_syn CORE: every storage cell, register, stack entry and port
value is a 16-bit Word (spec/00_scope.md R4, R7). Bytes exist in the program image only
(spec/20_memory.md R33). -/

namespace Sys2Proof

/-- A Word: a natural in [0, 65535] (R4). -/
abbrev Word := BitVec 16

/-- A byte of the program image (R33). -/
abbrev Byte := BitVec 8

end Sys2Proof
end

