-- ==== Sys2Proof/Config.lean ====
section
/-! DEFINITION. What one instance of the core fixes before its launch (spec/00_scope.md R3): the fixed
sizes, the default fill, and the open parameters with the spec's defaults. The spec leaves no result
value open (spec/93_implementation_defined.md), so there is no free value here. -/

namespace Sys2Proof

/-- `MEM_WORDS`: the number of memory words, addresses 0..32767 (R3, R30). -/
@[simp] abbrev Config.memWords : Nat := 32768

/-- `MODULUS`: the arithmetic modulus (R3, R110). -/
@[simp] abbrev Config.modulus : Nat := 32768

/-- `NUM_REGS`: the number of registers (R3, R10). -/
@[simp] abbrev Config.numRegs : Nat := 8

/-- `REG_BASE`: the operand word that names register 0 (R3, R53). -/
@[simp] abbrev Config.regBase : Nat := 32768

/-- The default of `FILL`: memory beyond the image holds 0 (R3, R38). It is also what an address the
memory does not list reads as. -/
def Config.fill (_ : Nat) : Word := 0

/-- `UNDEF_POLICY`: what an undefined opcode does (R3, R79). -/
inductive UndefPolicy
  /-- Log the word and go on one word further: the default. -/
  | skip
  /-- Raise `UndefinedOpcode`. -/
  | fault
deriving DecidableEq, Repr

/-- The open parameters that are plain data (R3). They are constants of an instance, fixed before its
launch, and no registers (R19). The two others are functions, and so arguments of operations: `FILL` of
the launch, `WATCHDOG` of the step (Machine/Watchdog.lean, Machine/Plug.lean). -/
structure Params where
  /-- `STACK_DEPTH`: a capacity, or `none` for an unbounded stack. -/
  stackDepth  : Option Nat
  /-- `UNDEF_POLICY`. -/
  undefPolicy : UndefPolicy
  /-- `WD_ENABLE`: whether the watchdog is consulted. -/
  wdEnable    : Bool
  /-- `WD_LIMIT`: the number of consecutive quiet retirements that trips the default watchdog, at least 1
  (R140). -/
  wdLimit     : Nat
deriving DecidableEq, Repr

/-- The spec's defaults of the open parameters (R3). -/
def Params.default : Params :=
  { stackDepth := none, undefPolicy := .skip, wdEnable := true, wdLimit := 32769 }

end Sys2Proof
end

