-- ==== Sys2Proof/Syntax.lean ====
section
/-! DEFINITION. The instructions of vm_syn-22 as syntax: one constructor for each of the 22 rows of the
opcode map (spec/30_encoding.md R55), with operands a, b, c in the order of their words (R50). -/

namespace Sys2Proof

/-- An operand, by the class of its word (R53): a literal stands for the natural it spells, a register
reference names one of the eight registers. The third class, an invalid word, is no operand. -/
inductive Operand
  /-- A word in [0, 32767]. -/
  | lit (v : Word)
  /-- The word 32768 + r. -/
  | reg (r : Fin 8)
deriving DecidableEq, Repr

/-- The opcode map (R55). Which operands are destinations (role D) and which values (role V) is fixed
by the opcode (R54); a destination stands first where there is one. -/
inductive Instr
  /-- id 0 -/
  | halt
  /-- id 1 -/
  | set (a b : Operand)
  /-- id 2 -/
  | push (a : Operand)
  /-- id 3 -/
  | pop (a : Operand)
  /-- id 4 -/
  | eq (a b c : Operand)
  /-- id 5 -/
  | gt (a b c : Operand)
  /-- id 6 -/
  | jmp (a : Operand)
  /-- id 7 -/
  | jt (a b : Operand)
  /-- id 8 -/
  | jf (a b : Operand)
  /-- id 9 -/
  | add (a b c : Operand)
  /-- id 10 -/
  | mult (a b c : Operand)
  /-- id 11 -/
  | mod (a b c : Operand)
  /-- id 12 -/
  | and (a b c : Operand)
  /-- id 13 -/
  | or (a b c : Operand)
  /-- id 14 -/
  | not (a b : Operand)
  /-- id 15 -/
  | rmem (a b : Operand)
  /-- id 16 -/
  | wmem (a b : Operand)
  /-- id 17 -/
  | call (a : Operand)
  /-- id 18 -/
  | ret
  /-- id 19 -/
  | out (a : Operand)
  /-- id 20, the mnemonic `in` (a word Lean keeps for itself) -/
  | input (a : Operand)
  /-- id 21 -/
  | noop
deriving DecidableEq, Repr

/-- The operands of an instruction, in the order a, b, c (R50). -/
def Instr.operands : Instr → List Operand
  | .halt => []
  | .set a b => [a, b]
  | .push a => [a]
  | .pop a => [a]
  | .eq a b c => [a, b, c]
  | .gt a b c => [a, b, c]
  | .jmp a => [a]
  | .jt a b => [a, b]
  | .jf a b => [a, b]
  | .add a b c => [a, b, c]
  | .mult a b c => [a, b, c]
  | .mod a b c => [a, b, c]
  | .and a b c => [a, b, c]
  | .or a b c => [a, b, c]
  | .not a b => [a, b]
  | .rmem a b => [a, b]
  | .wmem a b => [a, b]
  | .call a => [a]
  | .ret => []
  | .out a => [a]
  | .input a => [a]
  | .noop => []

/-- The arity: the number of operand words following the opcode word (R50, R55). -/
def Instr.arity (i : Instr) : Nat := i.operands.length

end Sys2Proof
end

