-- ==== Sys2Proof/WellFormed.lean ====
section
/-! DEFINITION. Which instruction terms stand for words of the machine: a literal operand is at most
32767 (spec/30_encoding.md R53, R59); everything else about an instruction is in its type. -/

namespace Sys2Proof

/-- An operand is well formed when some operand word spells it: a literal has bit 15 clear (R53), a
register reference is always one of the eight. -/
def Operand.wf : Operand → Bool
  | .lit v => decide (v.toNat < Config.regBase)
  | .reg _ => true

/-- An instruction is well formed when every operand is: every defined opcode accepts every valid
operand in every position (R59). -/
def Instr.wf (i : Instr) : Bool := i.operands.all Operand.wf

end Sys2Proof
end

