-- ==== Sys2Proof/Decode.lean ====
section
/-! DEFINITION. The decoder of vm_syn-22 (spec/30_encoding.md R50 to R62) and, after it, the encoder
written from the same tables. The decoder reads the words that stand from the pc on; it is total, and
names what it does not take. -/

namespace Sys2Proof

/-- What decoding the words from the pc on gives (R56, R61). -/
inductive Decoded
  /-- A defined opcode with valid operand words. -/
  | instr (i : Instr)
  /-- An opcode word in [22, 65535] (R57). -/
  | undefined (w : Word)
  /-- There is no word number `k` (0 the opcode word, 1 to 3 the operands a, b, c). -/
  | ranOut (k : Nat)
  /-- Operand word number `k` is in [32776, 65535] (R58). -/
  | invalidOperand (k : Nat) (w : Word)
deriving DecidableEq, Repr

/-- The classes of an operand word (R53): `none` for an invalid one. -/
def decodeOperand (w : Word) : Option Operand :=
  if w.toNat < Config.regBase then some (.lit w)
  else if h : w.toNat - Config.regBase < Config.numRegs then some (.reg ⟨w.toNat - Config.regBase, h⟩)
  else none

/-- The four formats (R51), each with the instruction its operands complete. -/
inductive Format
  | f0 (i : Instr)
  | f1 (i : Operand → Instr)
  | f2 (i : Operand → Operand → Instr)
  | f3 (i : Operand → Operand → Operand → Instr)

/-- The opcode map (R55): ids 0 through 21 are defined, every other word is not (R57). -/
def opcodeMap : Nat → Option Format
  | 0 => some (.f0 .halt)
  | 1 => some (.f2 .set)
  | 2 => some (.f1 .push)
  | 3 => some (.f1 .pop)
  | 4 => some (.f3 .eq)
  | 5 => some (.f3 .gt)
  | 6 => some (.f1 .jmp)
  | 7 => some (.f2 .jt)
  | 8 => some (.f2 .jf)
  | 9 => some (.f3 .add)
  | 10 => some (.f3 .mult)
  | 11 => some (.f3 .mod)
  | 12 => some (.f3 .and)
  | 13 => some (.f3 .or)
  | 14 => some (.f2 .not)
  | 15 => some (.f2 .rmem)
  | 16 => some (.f2 .wmem)
  | 17 => some (.f1 .call)
  | 18 => some (.f0 .ret)
  | 19 => some (.f1 .out)
  | 20 => some (.f1 .input)
  | 21 => some (.f0 .noop)
  | _ => none

/-- Operand word number `k` of the words `ws`: its presence is checked before its content (R61, R72). -/
def withOperand (ws : List Word) (k : Nat) (f : Operand → Decoded) : Decoded :=
  match ws[k]? with
  | none => .ranOut k
  | some w =>
    match decodeOperand w with
    | none => .invalidOperand k w
    | some o => f o

/-- Decoding (R61): the opcode word first, taken as it is (R71); then the operand words in ascending
order, all of them, before anything else (R72). -/
def decode (ws : List Word) : Decoded :=
  match ws with
  | [] => .ranOut 0
  | op :: _ =>
    match opcodeMap op.toNat with
    | none => .undefined op
    | some (.f0 i) => .instr i
    | some (.f1 i) => withOperand ws 1 fun a => .instr (i a)
    | some (.f2 i) => withOperand ws 1 fun a => withOperand ws 2 fun b => .instr (i a b)
    | some (.f3 i) =>
      withOperand ws 1 fun a => withOperand ws 2 fun b => withOperand ws 3 fun c => .instr (i a b c)

/-- The opcode id of an instruction (R55). -/
def opcodeOf : Instr → Word
  | .halt => 0
  | .set _ _ => 1
  | .push _ => 2
  | .pop _ => 3
  | .eq _ _ _ => 4
  | .gt _ _ _ => 5
  | .jmp _ => 6
  | .jt _ _ => 7
  | .jf _ _ => 8
  | .add _ _ _ => 9
  | .mult _ _ _ => 10
  | .mod _ _ _ => 11
  | .and _ _ _ => 12
  | .or _ _ _ => 13
  | .not _ _ => 14
  | .rmem _ _ => 15
  | .wmem _ _ => 16
  | .call _ => 17
  | .ret => 18
  | .out _ => 19
  | .input _ => 20
  | .noop => 21

/-- The word of an operand (R53, R63): a literal is its own word, register `r` is the word 32768 + r. -/
def encodeOperand : Operand → Word
  | .lit v => v
  | .reg r => BitVec.ofNat 16 (Config.regBase + r.val)

/-- The words of an instruction in address order (R50). -/
def encode (i : Instr) : List Word := opcodeOf i :: i.operands.map encodeOperand

/-- The most words an instruction has (R50). -/
def maxInstrWords : Nat := 4

/-- The `n` words that the number `w` holds, the first in its low bits. -/
def wordsOfNat : Nat → Nat → List Word
  | 0, _ => []
  | n + 1, w => BitVec.ofNat 16 w :: wordsOfNat n (w / 65536)

/-- The words of a row of the opcode table whose low `nbits` bits are those of `w`, every bit above
them 0, up to the longest instruction. -/
def tableWords (nbits w : Nat) : List Word := wordsOfNat maxInstrWords (w % 2 ^ nbits)

/-- What the decoder reads from the bits `w`, numbered as spec/opcode_table.json numbers them. -/
def decodeTableWord (nbits w : Nat) : Option Instr :=
  match decode (tableWords nbits w) with
  | .instr i => some i
  | _ => none

end Sys2Proof
end

