-- ==== Sys2Proof/Machine/State.lean ====
section
/-! DEFINITION. The state of the core (spec/10_state.md, spec/45_watchdog.md section 2), the fault
records of spec/60_exceptions.md R150, what a step can answer beside a next state, and the state after
the launch of the empty image (spec/70_reset_and_hazards.md R181). -/

namespace Sys2Proof.Machine

/-- The memory array (spec/20_memory.md R30): Words by Word address. Only cells that differ from the
fill are listed, by rising address, so that equal memories are equal lists. -/
abbrev Memory := List (Nat × Word)

/-- The canonical form: addresses strictly rise, exist (R30, R39), and no listed Word is what an
unlisted address reads as. -/
abbrev Memory.wf (m : Memory) : Prop :=
  m.Pairwise (fun c d => c.1 < d.1) ∧ ∀ c ∈ m, c.1 < Config.memWords ∧ c.2 ≠ Config.fill c.1

/-- The engine state register `state` (R16). -/
inductive EngineState
  | running
  | halted
  | faulted
deriving DecidableEq, Repr

/-- The signature `wd_sig` (R138): three counters modulo 65536. -/
structure Signature where
  regChg : Word
  memChg : Word
  stkChg : Word
deriving DecidableEq, Repr

/-- The kind of access an `AddressOutOfRange` record names (R150). -/
inductive Access
  | fetch
  | read
  | write
deriving DecidableEq, Repr

/-- The closed list of fault records, with their payloads (R150). `D` is the type of the diagnostic that
the instance's watchdog strategy trips with (R145). -/
inductive FaultRecord (D : Type)
  /-- Code 1: an undefined opcode under the policy `fault`. -/
  | undefinedOpcode (pc word : Word)
  /-- Code 2: `pop` on an empty stack. -/
  | stackUnderflow (pc : Word)
  /-- Code 3: `mod` by zero. -/
  | divisionByZero (pc : Word)
  /-- Code 4: operand word `k` (1 = a, 2 = b, 3 = c) is in [32776, 65535]. -/
  | invalidOperand (pc : Word) (k : Nat) (word : Word)
  /-- Code 5: the watchdog tripped with this diagnostic, in the default strategy its signature. -/
  | watchdogTripped (diagnostic : D)
  /-- Code 6: an address above 32767. -/
  | addressOutOfRange (pc addr : Word) (access : Access)
  /-- Code 7: `push` or `call` on a full stack of finite depth. -/
  | stackOverflow (pc : Word)
deriving DecidableEq, Repr

/-- The events of the diagnostic stream (R24). -/
inductive DiagEvent
  | undefinedOpcodeSkipped (pc word : Word)
deriving DecidableEq, Repr

namespace Plugged

/-- The whole state of a core into which a watchdog strategy with the state type `W` and the diagnostic
type `D` is plugged (R145). Only `wd` and `reason` have a type that depends on the strategy. -/
structure State (W D : Type) where
  /-- The register file `x[0..7]` (R10, R11). -/
  regs       : Vector Word 8
  /-- The program counter (R13). -/
  pc         : Word
  /-- The stack, top last (R20). -/
  stack      : List Word
  /-- The memory array (R30). -/
  mem        : Memory
  /-- The engine state register `state` (R16). -/
  engine     : EngineState
  /-- The fault reason register `reason` (R17). -/
  reason     : Option (FaultRecord D)
  /-- The record of the output port (R23), oldest first. -/
  outStream  : List Word
  /-- The Words the host has supplied and the core has not consumed (R25), oldest first. -/
  inStream   : List Word
  /-- The record of the diagnostic port (R24), oldest first. -/
  diagStream : List DiagEvent
  /-- The state of the watchdog strategy (R145). -/
  wd         : W
  /-- The parameters of this instance (R3): the model's own field, no register (R19). DESIGN CHOICE,
  notes/assumptions/1.md. -/
  params     : Params
deriving DecidableEq, Repr

end Plugged

/-- The registers of the default strategy, `W = (wd_sig, wd_run)` (R145). -/
structure WdRegisters where
  /-- The signature `wd_sig` (R138). -/
  sig : Signature
  /-- The run counter `wd_run` (R139). -/
  run : Nat
deriving DecidableEq, Repr

/-- The state of the core with the default strategy, which trips with its signature (R141, R145). -/
abbrev State := Plugged.State WdRegisters Signature

/-- The watchdog's signature `wd_sig` (R138). -/
@[simp] abbrev Plugged.State.wdSig (s : Plugged.State WdRegisters Signature) : Signature := s.wd.sig

/-- The watchdog's run counter `wd_run` (R139). -/
@[simp] abbrev Plugged.State.wdRun (s : Plugged.State WdRegisters Signature) : Nat := s.wd.run

/-- Why a step answers no next state although nothing is wrong with the model's coverage: each says
that the spec gives the machine no step here. A fault of the MACHINE is none of these: taking it is a
next state (R161). -/
inductive Fault
  /-- Raised by `step` in the state Halted, which is terminal (R16, R164). Safe: the spec has no step. -/
  | engineHalted
  /-- Raised by `step` in the state Faulted, which is terminal (R16, R164), with the code of the record in
  the `reason` register (R150). Safe: the spec has no step. -/
  | engineFaulted (code : Option Nat)
  /-- Raised by `in` while `in_stream` is empty: the engine holds and yields to the host; there is no
  transition, the engine is still Running at the same pc and goes on once the host supplies a Word
  (R128). Safe: the spec has no step. -/
  | inputHold
deriving DecidableEq, Repr

/-- What the model refuses. -/
inductive Refusal
  /-- Raised by an arm of `exec` that has no meaning yet; there is none. Safe. -/
  | notModelled (mnemonic : String)
  /-- Raised by `launch` for an image of odd length or of more than 65536 bytes: no launch happens
  (R34). Safe. -/
  | imageRefused (bytes : Nat)
deriving DecidableEq, Repr

/-- What a step, a meaning or a launch answers. -/
abbrev Plugged.Result (W D : Type) := Host.Outcome (Plugged.State W D) Fault Refusal

/-- The same, with the default strategy. -/
abbrev Result := Plugged.Result WdRegisters Signature

/-- The state after the launch of the empty image with the default parameters and the
default strategy (R181). That this image
and an empty input queue stand for "right after reset" is a DESIGN CHOICE, notes/assumptions/2.md. -/
def State.reset : State :=
  { regs := Vector.replicate 8 0
    pc := 0
    stack := []
    mem := []
    engine := .running
    reason := none
    outStream := []
    inStream := []
    diagStream := []
    wd := { sig := { regChg := 0, memChg := 0, stkChg := 0 }, run := 0 }
    params := Params.default }

end Sys2Proof.Machine
end

