-- ==== Sys2Proof/Machine/Watchdog.lean ====
section
/-! DEFINITION. The non-termination watchdog (spec/45_watchdog.md): the retirement record, the interface
of a strategy, and the default strategy. The strategy is an argument of retirement (Machine/Ops.lean) and
of the step (`stepWith`, Machine/Plug.lean); the machine behind the host's interface runs the default one
(notes/assumptions/9.md). -/

namespace Sys2Proof.Machine

/-- The retirement record (R136). -/
structure Retirement where
  /-- A register received a Word different from the one it held. -/
  reg : Bool
  /-- A memory word received a Word different from the one it held. -/
  mem : Bool
  /-- The instruction pushed or popped. -/
  stk : Bool
deriving DecidableEq, Repr

/-- `ev_none` (R136). -/
def evNone : Retirement := { reg := false, mem := false, stk := false }

/-- `ev_stk` (R136). -/
def evStk : Retirement := { reg := false, mem := false, stk := true }

/-- `ev_in(d)` (R127): the destination counts as changed whatever the Word. -/
def evIn : Operand → Retirement
  | .reg _ => { reg := true, mem := false, stk := false }
  | .lit _ => { reg := false, mem := true, stk := false }

/-- What a strategy sees (R145): registers, memory, stack and pc after the retirement, and its record. -/
structure Snapshot where
  regs  : Vector Word 8
  mem   : Memory
  stack : List Word
  pc    : Word
  ev    : Retirement

/-- The snapshot of a state whose instruction just retired with the record `ev`. -/
def snapshot {W D : Type} (ev : Retirement) (s : Plugged.State W D) : Snapshot :=
  { regs := s.regs, mem := s.mem, stack := s.stack, pc := s.pc, ev := ev }

/-- The pluggable interface, the parameter `WATCHDOG` (R3, R145): a state type `W`, its launch value, and
a sample function that may trip with a diagnostic of type `D`. -/
structure WatchdogStrategy (W D : Type) where
  init   : W
  sample : W → Snapshot → W × Option D

/-- A counter of the signature: one more modulo 65536 where its flag is set (R138). -/
def countFlag (flag : Bool) (c : Word) : Word := if flag then c + 1 else c

/-- The signature after a retirement (R140). -/
def nextSignature (ev : Retirement) (sig : Signature) : Signature :=
  { regChg := countFlag ev.reg sig.regChg
    memChg := countFlag ev.mem sig.memChg
    stkChg := countFlag ev.stk sig.stkChg }

/-- `wd_run` after a retirement that took the signature from `old` to `new` (R140). -/
def nextRun (old new : Signature) (run : Nat) : Nat := if new = old then run + 1 else 0

/-- `wd_sample` (R140), with the limit `limit`. -/
def wdSample (limit : Nat) (w : WdRegisters) (ev : Retirement) : WdRegisters × Option Signature :=
  let sig := nextSignature ev w.sig
  let run := nextRun w.sig sig w.run
  ({ sig := sig, run := run }, if limit ≤ run then some sig else none)

/-- The default strategy (R140, R145). -/
def defaultWatchdog (limit : Nat) : WatchdogStrategy WdRegisters Signature :=
  { init := { sig := { regChg := 0, memChg := 0, stkChg := 0 }, run := 0 }
    sample := fun w snap => wdSample limit w snap.ev }

end Sys2Proof.Machine
end

