-- ==== Sys2Proof/Machine/Ops.lean ====
section
/-! DEFINITION. The named operations over memory, registers, stack, streams and the engine state, taking
a fault and halting (spec/60_exceptions.md R161, R163), retirement (spec/40_step_and_operands.md R78),
and the ways an instruction ends, over a state with any watchdog strategy plugged in. There is no return
from a fault or a halt (R164), so no operation for one stands here. -/

namespace Sys2Proof.Machine

/-- `MemRead(addr, 1)` (R31): an unlisted address reads as the fill. -/
def Memory.read : Memory → Nat → Word
  | [], a => Config.fill a
  | c :: m, a => if c.1 = a then c.2 else Memory.read m a

/-- The cell `(a, v)` before the cells `m`, left out when it is what an unlisted address reads as. -/
def Memory.cons (a : Nat) (v : Word) (m : Memory) : Memory :=
  if v = Config.fill a then m else (a, v) :: m

/-- `MemWrite(addr, 1, v)` (R31); it keeps the canonical form. -/
def Memory.write : Memory → Nat → Word → Memory
  | [], a, v => Memory.cons a v []
  | c :: m, a, v =>
    if a < c.1 then Memory.cons a v (c :: m)
    else if a = c.1 then Memory.cons a v m
    else c :: Memory.write m a v

/-- An address exists when it is in 0..32767 (R30, R39). -/
def addressExists (a : Word) : Bool := decide (a.toNat < Config.memWords)

variable {W D : Type}

/-- `x[i] <- v` (R5), all 16 bits, no mask (R11). -/
def Plugged.State.setReg (r : Fin 8) (v : Word) (s : Plugged.State W D) : Plugged.State W D :=
  { s with regs := s.regs.set r v }

/-- `MemWrite(a, 1, v)` on the machine's memory (R31), all 16 bits, no mask. -/
def Plugged.State.setMem (a : Nat) (v : Word) (s : Plugged.State W D) : Plugged.State W D :=
  { s with mem := Memory.write s.mem a v }

/-- `pc <- t` (R5). -/
def Plugged.State.setPc (t : Word) (s : Plugged.State W D) : Plugged.State W D := { s with pc := t }

/-- `stack.push(v)`: append at the top, which is last (R20). -/
def Plugged.State.pushWord (v : Word) (s : Plugged.State W D) : Plugged.State W D :=
  { s with stack := s.stack ++ [v] }

/-- The stack without its top (R20). -/
def Plugged.State.dropTop (s : Plugged.State W D) : Plugged.State W D :=
  { s with stack := s.stack.dropLast }

/-- The Word on top of the stack, `none` on an empty stack (R20, R21). -/
def Plugged.State.top? (s : Plugged.State W D) : Option Word := s.stack.getLast?

/-- Whether the stack of a finite-depth instance holds `STACK_DEPTH` entries (R21); never when the
stack is unbounded. -/
def Plugged.State.stackFull (s : Plugged.State W D) : Bool :=
  decide (s.params.stackDepth = some s.stack.length)

/-- `emit_out(v)` (R5, R23). -/
def Plugged.State.emitOut (v : Word) (s : Plugged.State W D) : Plugged.State W D :=
  { s with outStream := s.outStream ++ [v] }

/-- `emit_diag(e)` (R5, R24). -/
def Plugged.State.emitDiag (e : DiagEvent) (s : Plugged.State W D) : Plugged.State W D :=
  { s with diagStream := s.diagStream ++ [e] }

/-- The head of the input queue consumed (R25, R127). -/
def Plugged.State.dropInput (s : Plugged.State W D) : Plugged.State W D :=
  { s with inStream := s.inStream.tail }

/-- The watchdog's state written (R140, R145). -/
def Plugged.State.setWatchdog (w : W) (s : Plugged.State W D) : Plugged.State W D :=
  { s with wd := w }

/-- Taking a fault, `raise` (R161): `state` and `reason`, nothing else. -/
def Plugged.State.raise (r : FaultRecord D) (s : Plugged.State W D) : Plugged.State W D :=
  { s with engine := .faulted, reason := some r }

/-- Halting, `halt_engine()` (R163): `state` and nothing else. -/
def Plugged.State.haltEngine (s : Plugged.State W D) : Plugged.State W D :=
  { s with engine := .halted }

/-- The strategy `wd` consulted once (R78, R135): its state written, and the trip taken if it trips
(R141). -/
def sampleWatchdog (wd : WatchdogStrategy W D) (ev : Retirement) (s : Plugged.State W D) :
    Plugged.State W D :=
  let r := wd.sample s.wd (snapshot ev s)
  match r.2 with
  | none => s.setWatchdog r.1
  | some diagnostic => (s.setWatchdog r.1).raise (.watchdogTripped diagnostic)

/-- Stage S5, `retire` (R78): the next pc is committed, then the watchdog is consulted where it is
enabled (R135). -/
def retire (wd : WatchdogStrategy W D) (next : Word) (ev : Retirement) (s : Plugged.State W D) :
    Plugged.State W D :=
  if s.params.wdEnable then sampleWatchdog wd ev (s.setPc next) else s.setPc next

/-- How an instruction ends (R80, R128), before stage S5: no instruction's meaning depends on the
watchdog (R135), so none of this does. -/
inductive Ending (W D : Type)
  /-- It halts the engine (R163). -/
  | halt
  /-- It raises a fault (R161). -/
  | fault (r : FaultRecord D)
  /-- It retires with this next pc and record (R78) from the state in which its effects are made. -/
  | retire (next : Word) (ev : Retirement) (u : Plugged.State W D)
  /-- It holds: there is no step (R128). -/
  | hold

/-- What an instruction that ends so answers in `s`, with the strategy `wd`: the watchdog is consulted at
a retirement and nowhere else (R135, R142). -/
def conclude (wd : WatchdogStrategy W D) (s : Plugged.State W D) : Ending W D → Plugged.Result W D
  | .halt => .next s.haltEngine
  | .fault r => .next (s.raise r)
  | .retire next ev u => .next (retire wd next ev u)
  | .hold => .fault .inputHold

/-- The same with the default strategy of the instance (R140). -/
def finish (s : State) (e : Ending WdRegisters Signature) : Result :=
  conclude (defaultWatchdog s.params.wdLimit) s e

/-- The code of a fault record in the `reason` register (R150). -/
def FaultRecord.code : FaultRecord D → Nat
  | .undefinedOpcode _ _ => 1
  | .stackUnderflow _ => 2
  | .divisionByZero _ => 3
  | .invalidOperand _ _ _ => 4
  | .watchdogTripped _ => 5
  | .addressOutOfRange _ _ _ => 6
  | .stackOverflow _ => 7

end Sys2Proof.Machine
end

