-- ==== Sys2Proof/Machine/Operands.lean ====
section
/-! DEFINITION. The operand resolver (spec/40_step_and_operands.md R73 to R77) and the write of a result
with its retirement record (spec/45_watchdog.md R136). -/

namespace Sys2Proof.Machine

variable {W D : Type}

/-- `value(k)` (R74, R77): a literal stands for itself, a register reference for the register's
content, substituted once and not checked again. -/
def value (o : Operand) (s : Plugged.State W D) : Word :=
  match o with
  | .lit v => v
  | .reg r => s.regs[r]

/-- `write_ev(d, v)` (R75, R136): the register or the memory word that `d` names receives `v`, and the
record says whether that changed it. `none` is the third branch of `write`, an invalid destination,
which no decoded instruction has (R73). -/
def writeEv (d : Operand) (v : Word) (s : Plugged.State W D) : Option (Plugged.State W D × Retirement) :=
  match d with
  | .reg r => some (s.setReg r v, { reg := decide (s.regs[r] ≠ v), mem := false, stk := false })
  | .lit a =>
    if addressExists a then
      some (s.setMem a.toNat v,
        { reg := false, mem := decide (Memory.read s.mem a.toNat ≠ v), stk := false })
    else none

/-- The end of an instruction that writes `v` to its first operand `d` in `s`: `adjust` gives the record
to retire with. An invalid destination faults (R75). -/
def writeRetire (d : Operand) (v next : Word) (adjust : Retirement → Retirement) (s : Plugged.State W D) :
    Ending W D :=
  match writeEv d v s with
  | none => .fault (.invalidOperand s.pc 1 (encodeOperand d))
  | some (u, ev) => .retire next (adjust ev) u

/-- The common end of `set` and of the ALU instructions: `ev <- write_ev(raw(a), v)`, then
`retire(pc + words, ev)` (files 42 and 43). -/
def storeResult (d : Operand) (v words : Word) (s : Plugged.State W D) : Ending W D :=
  writeRetire d v (s.pc + words) id s

end Sys2Proof.Machine
end

