-- ==== Sys2Proof/Machine/Flags.lean ====
section
/-! DEFINITION. The core has no status flags, no condition codes and no predicate registers
(spec/10_state.md R15): a comparison's result is an ordinary Word, computed here. -/

namespace Sys2Proof.Machine

/-- The truth-like results of `eq` and `gt` (R15, R112, R113): the Word 1 or 0. -/
def truthWord (b : Bool) : Word := if b then 1 else 0

end Sys2Proof.Machine
end

