-- ==== Sys2Proof/Machine/Alu.lean ====
section
/-! DEFINITION. The comparison, arithmetic and bitwise instructions (spec/43_alu.md). Results are computed
on naturals and narrowed at the end (R110, R111); values are read before the destination is written
(R77). -/

namespace Sys2Proof.Machine

variable {W D : Type}

/-- The low 15 bits of an exact result, zero-extended to a Word (R110). -/
def modWord (n : Nat) : Word := BitVec.ofNat 16 (n % Config.modulus)

/-- `eq a, b, c` (R112): equality of the 16-bit values. -/
def eqEnding (a b c : Operand) (s : Plugged.State W D) : Ending W D :=
  storeResult a (truthWord (decide (value b s = value c s))) 4 s

@[inherit_doc eqEnding]
def execEq (a b c : Operand) (s : State) : Result := finish s (eqEnding a b c s)

/-- `gt a, b, c` (R113): strict, unsigned. -/
def gtEnding (a b c : Operand) (s : Plugged.State W D) : Ending W D :=
  storeResult a (truthWord (decide ((value c s).toNat < (value b s).toNat))) 4 s

@[inherit_doc gtEnding]
def execGt (a b c : Operand) (s : State) : Result := finish s (gtEnding a b c s)

/-- `add a, b, c` (R114). -/
def addEnding (a b c : Operand) (s : Plugged.State W D) : Ending W D :=
  storeResult a (modWord ((value b s).toNat + (value c s).toNat)) 4 s

@[inherit_doc addEnding]
def execAdd (a b c : Operand) (s : State) : Result := finish s (addEnding a b c s)

/-- `mult a, b, c` (R115). -/
def multEnding (a b c : Operand) (s : Plugged.State W D) : Ending W D :=
  storeResult a (modWord ((value b s).toNat * (value c s).toNat)) 4 s

@[inherit_doc multEnding]
def execMult (a b c : Operand) (s : State) : Result := finish s (multEnding a b c s)

/-- `mod a, b, c` (R116): the remainder is not reduced further. -/
def modEnding (a b c : Operand) (s : Plugged.State W D) : Ending W D :=
  if value c s = 0 then .fault (.divisionByZero s.pc)
  else storeResult a (BitVec.ofNat 16 ((value b s).toNat % (value c s).toNat)) 4 s

@[inherit_doc modEnding]
def execMod (a b c : Operand) (s : State) : Result := finish s (modEnding a b c s)

/-- `and a, b, c` (R117): 16 bits, no mask. -/
def andEnding (a b c : Operand) (s : Plugged.State W D) : Ending W D :=
  storeResult a (value b s &&& value c s) 4 s

@[inherit_doc andEnding]
def execAnd (a b c : Operand) (s : State) : Result := finish s (andEnding a b c s)

/-- `or a, b, c` (R118): 16 bits, no mask. -/
def orEnding (a b c : Operand) (s : Plugged.State W D) : Ending W D :=
  storeResult a (value b s ||| value c s) 4 s

@[inherit_doc orEnding]
def execOr (a b c : Operand) (s : State) : Result := finish s (orEnding a b c s)

/-- `not a, b` (R119): the low 15 bits inverted, bit 15 cleared. -/
def notEnding (a b : Operand) (s : Plugged.State W D) : Ending W D :=
  storeResult a ((value b s ^^^ 0x7FFF) &&& 0x7FFF) 3 s

@[inherit_doc notEnding]
def execNot (a b : Operand) (s : State) : Result := finish s (notEnding a b s)

end Sys2Proof.Machine
end

