-- ==== Sys2Proof/Machine/Control.lean ====
section
/-! DEFINITION. The control-flow instructions (spec/41_control_flow.md): halt, jmp, jt, jf, call, ret,
noop. A target is not checked here: the next fetch checks it. -/

namespace Sys2Proof.Machine

variable {W D : Type}

/-- `halt` (R90): the pc stays at the instruction, the watchdog is not sampled. -/
def haltEnding (_ : Plugged.State W D) : Ending W D := .halt

@[inherit_doc haltEnding]
def execHalt (s : State) : Result := finish s (haltEnding s)

/-- `jmp a` (R91). -/
def jmpEnding (a : Operand) (s : Plugged.State W D) : Ending W D := .retire (value a s) evNone s

@[inherit_doc jmpEnding]
def execJmp (a : Operand) (s : State) : Result := finish s (jmpEnding a s)

/-- `jt a, b` (R92): the test is on the whole 16-bit value. -/
def jtEnding (a b : Operand) (s : Plugged.State W D) : Ending W D :=
  .retire (if value a s ≠ 0 then value b s else s.pc + 3) evNone s

@[inherit_doc jtEnding]
def execJt (a b : Operand) (s : State) : Result := finish s (jtEnding a b s)

/-- `jf a, b` (R93). -/
def jfEnding (a b : Operand) (s : Plugged.State W D) : Ending W D :=
  .retire (if value a s = 0 then value b s else s.pc + 3) evNone s

@[inherit_doc jfEnding]
def execJf (a b : Operand) (s : State) : Result := finish s (jfEnding a b s)

/-- `call a` (R94): the return address is `pc + 2`. -/
def callEnding (a : Operand) (s : Plugged.State W D) : Ending W D :=
  if s.stackFull then .fault (.stackOverflow s.pc)
  else .retire (value a s) evStk (s.pushWord (s.pc + 2))

@[inherit_doc callEnding]
def execCall (a : Operand) (s : State) : Result := finish s (callEnding a s)

/-- `ret` (R95): an empty stack halts with the pc at the instruction and no watchdog sample. -/
def retEnding (s : Plugged.State W D) : Ending W D :=
  match s.top? with
  | none => .halt
  | some t => .retire t evStk s.dropTop

@[inherit_doc retEnding]
def execRet (s : State) : Result := finish s (retEnding s)

/-- `noop` (R96). -/
def noopEnding (s : Plugged.State W D) : Ending W D := .retire (s.pc + 1) evNone s

@[inherit_doc noopEnding]
def execNoop (s : State) : Result := finish s (noopEnding s)

end Sys2Proof.Machine
end

