-- ==== Sys2Proof/Machine/DataMove.lean ====
section
/-! DEFINITION. The data-movement instructions (spec/42_data_movement.md): set, push, pop, rmem, wmem.
None of them masks the Word it moves (R105). -/

namespace Sys2Proof.Machine

variable {W D : Type}

/-- `set a, b` (R100). -/
def setEnding (a b : Operand) (s : Plugged.State W D) : Ending W D := storeResult a (value b s) 3 s

@[inherit_doc setEnding]
def execSet (a b : Operand) (s : State) : Result := finish s (setEnding a b s)

/-- `push a` (R101). -/
def pushEnding (a : Operand) (s : Plugged.State W D) : Ending W D :=
  if s.stackFull then .fault (.stackOverflow s.pc)
  else .retire (s.pc + 2) evStk (s.pushWord (value a s))

@[inherit_doc pushEnding]
def execPush (a : Operand) (s : State) : Result := finish s (pushEnding a s)

/-- `pop a` (R102): the retirement counts as a stack change whatever the Word. -/
def popEnding (a : Operand) (s : Plugged.State W D) : Ending W D :=
  match s.top? with
  | none => .fault (.stackUnderflow s.pc)
  | some v => writeRetire a v (s.pc + 2) (fun ev => { ev with stk := true }) s.dropTop

@[inherit_doc popEnding]
def execPop (a : Operand) (s : State) : Result := finish s (popEnding a s)

/-- `rmem a, b` (R103). -/
def rmemEnding (a b : Operand) (s : Plugged.State W D) : Ending W D :=
  if addressExists (value b s) then storeResult a (Memory.read s.mem (value b s).toNat) 3 s
  else .fault (.addressOutOfRange s.pc (value b s) .read)

@[inherit_doc rmemEnding]
def execRmem (a b : Operand) (s : State) : Result := finish s (rmemEnding a b s)

/-- `wmem a, b` (R104): `a` is resolved, unlike a destination. -/
def wmemEnding (a b : Operand) (s : Plugged.State W D) : Ending W D :=
  if addressExists (value a s) then storeResult (.lit (value a s)) (value b s) 3 s
  else .fault (.addressOutOfRange s.pc (value a s) .write)

@[inherit_doc wmemEnding]
def execWmem (a b : Operand) (s : State) : Result := finish s (wmemEnding a b s)

end Sys2Proof.Machine
end

