-- ==== Sys2Proof/Machine/InOut.lean ====
section
/-! DEFINITION. The input and output instructions (spec/44_io.md). -/

namespace Sys2Proof.Machine

variable {W D : Type}

/-- `out a` (R125): the resolved Word goes to the output port as it is; the port never blocks. -/
def outEnding (a : Operand) (s : Plugged.State W D) : Ending W D :=
  .retire (s.pc + 2) evNone (s.emitOut (value a s))

@[inherit_doc outEnding]
def execOut (a : Operand) (s : State) : Result := finish s (outEnding a s)

/-- `in a` (R127). While `in_stream` is empty the engine holds: it has no step (R128,
notes/assumptions/6.md). The Word is stored as the host supplied it, and the retirement is never
quiet. -/
def inputEnding (a : Operand) (s : Plugged.State W D) : Ending W D :=
  match s.inStream with
  | [] => .hold
  | w :: _ => writeRetire a w (s.pc + 2) (fun _ => evIn a) s.dropInput

@[inherit_doc inputEnding]
def execInput (a : Operand) (s : State) : Result := finish s (inputEnding a s)

end Sys2Proof.Machine
end

