-- ==== Sys2Proof/Machine/Fetch.lean ====
section
/-! DEFINITION. Stages S1 and S2 of the step (spec/40_step_and_operands.md R70 to R72): the words fetched
from the pc on, decoding, the fault each decode failure raises, the undefined opcode (R79), the
conditions under which there is no step (R16), and the placing of an instruction's words. -/

namespace Sys2Proof.Machine

variable {W D : Type}

/-- The words at the addresses `a`, `a + 1`, ... (`n` of them) that exist; the first address above
32767 ends the list (R35, R39, R61). -/
def wordsAt : Memory → Nat → Nat → List Word
  | _, _, 0 => []
  | m, a, n + 1 => if a < Config.memWords then Memory.read m a :: wordsAt m (a + 1) n else []

/-- Stages S1 and S2: decoding what stands at the pc (R61). It depends on the pc and on memory only
(R62). -/
def fetch (s : Plugged.State W D) : Decoded := decode (wordsAt s.mem s.pc.toNat maxInstrWords)

/-- Address `pc + k` of word number `k` of the instruction (R50). -/
def wordAddress (k : Nat) (s : Plugged.State W D) : Word := s.pc + BitVec.ofNat 16 k

/-- An opcode or operand word lies beyond address 32767 (R71, R72). -/
def fetchOutOfRange (k : Nat) (s : Plugged.State W D) : Ending W D :=
  .fault (.addressOutOfRange s.pc (wordAddress k s) .fetch)

/-- Operand word `k` is invalid (R72). -/
def fetchInvalidOperand (k : Nat) (w : Word) (s : Plugged.State W D) : Ending W D :=
  .fault (.invalidOperand s.pc k w)

/-- An undefined opcode (R79): skipped by one word with a diagnostic event, or a fault, as the
instance's `UNDEF_POLICY` says. No operand is fetched. -/
def undefinedOpcode (w : Word) (s : Plugged.State W D) : Ending W D :=
  match s.params.undefPolicy with
  | .fault => .fault (.undefinedOpcode s.pc w)
  | .skip => .retire (s.pc + 1) evNone (s.emitDiag (.undefinedOpcodeSkipped s.pc w))

/-- Why the engine takes no step at all: it is in a terminal state (R16). -/
def noStep (s : Plugged.State W D) : Option Fault :=
  match s.engine with
  | .running => none
  | .halted => some .engineHalted
  | .faulted => some (.engineFaulted (s.reason.map FaultRecord.code))

/-- The words `ws` stored from address `a` on, as far as the addresses exist. -/
def placeWords (a : Nat) (ws : List Word) (m : Memory) : Memory :=
  match ws with
  | [] => m
  | w :: rest => if a < Config.memWords then placeWords (a + 1) rest (Memory.write m a w) else m

end Sys2Proof.Machine
end

