-- ==== Sys2Proof/Machine/Step.lean ====
section
/-! DEFINITION. One step of the core (spec/40_step_and_operands.md R70): one whole instruction. -/

namespace Sys2Proof.Machine

/-- `step` (R70): none in a terminal state; else fetch, decode and execute one instruction, or take the
decode stage's fault, or do what an undefined opcode does. The watchdog is the default strategy;
`stepWith` (Machine/Plug.lean) is the step with any strategy. -/
def step (s : State) : Host.Outcome State Fault Refusal :=
  match noStep s with
  | some f => .fault f
  | none =>
    match fetch s with
    | .instr i => exec i s
    | .undefined w => finish s (undefinedOpcode w s)
    | .ranOut k => finish s (fetchOutOfRange k s)
    | .invalidOperand k w => finish s (fetchInvalidOperand k w s)

/-- `s` with the instruction of a row of the opcode table placed at the pc, where `step` fetches. -/
def State.withFetchWord (s : State) (nbits w : Nat) : State :=
  { s with mem := placeWords s.pc.toNat (tableWords nbits w) s.mem }

end Sys2Proof.Machine
end

