-- ==== Sys2Proof/Machine/Launch.lean ====
section
/-! DEFINITION. What the host does to the core: the launch, which is the only reset
(spec/70_reset_and_hazards.md R180, R181, spec/20_memory.md R33, R34), the supply of input Words
(spec/10_state.md R25), and what it reads at the end of a run (R18). -/

namespace Sys2Proof.Machine

/-- The Words of an image, low byte first (R33); `none` for an odd number of bytes (R34). -/
def imageWords : List Byte → Option (List Word)
  | [] => some []
  | [_] => none
  | lo :: hi :: rest => (imageWords rest).map fun ws => BitVec.ofNat 16 (lo.toNat + 256 * hi.toNat) :: ws

/-- The cells of the Words `ws` at the addresses `a`, `a + 1`, ... -/
def imageCells (a : Nat) (ws : List Word) : Memory :=
  match ws with
  | [] => []
  | w :: rest => Memory.cons a w (imageCells (a + 1) rest)

/-- The cells of the fill `fill` at the `n` addresses from `a` on (R33, R38). -/
def fillCells (fill : Nat → Word) (a n : Nat) : Memory :=
  match n with
  | 0 => []
  | k + 1 => Memory.cons a (fill a) (fillCells fill (a + 1) k)

/-- Memory after a launch (R33): the image verbatim, then the fill up to address 32767. -/
def launchMemory (fill : Nat → Word) (ws : List Word) : Memory :=
  imageCells 0 ws ++ fillCells fill ws.length (Config.memWords - ws.length)

variable {W D : Type}

/-- The state after a launch (R181): `wd` is the instance's watchdog strategy, `p` are its other
parameters, `queued` is what the host has already queued at the input port. -/
def launchStateWith (wd : WatchdogStrategy W D) (p : Params) (fill : Nat → Word) (ws queued : List Word) :
    Plugged.State W D :=
  { regs := Vector.replicate 8 0
    pc := 0
    stack := []
    mem := launchMemory fill ws
    engine := .running
    reason := none
    outStream := []
    inStream := queued
    diagStream := []
    wd := wd.init
    params := p }

/-- The launch, `load(bytes)` (R180): refused for an odd number of bytes or more than 65536 (R34). Every
parameter of R3 that is not fixed is an argument. -/
def launchWith (wd : WatchdogStrategy W D) (p : Params) (fill : Nat → Word) (bytes : List Byte)
    (queued : List Word) : Plugged.Result W D :=
  match imageWords bytes with
  | none => .refused (.imageRefused bytes.length)
  | some ws =>
    if ws.length ≤ Config.memWords then .next (launchStateWith wd p fill ws queued)
    else .refused (.imageRefused bytes.length)

/-- A new launch of an instance, from any state (R180): everything is discarded but the host's input
queue (R181) and the instance's parameters. -/
def relaunchWith (wd : WatchdogStrategy W D) (fill : Nat → Word) (bytes : List Byte)
    (s : Plugged.State W D) : Plugged.Result W D :=
  launchWith wd s.params fill bytes s.inStream

/-- The state after a launch with the default strategy. -/
def launchState (p : Params) (fill : Nat → Word) (ws queued : List Word) : State :=
  launchStateWith (defaultWatchdog p.wdLimit) p fill ws queued

/-- The launch with the default strategy. -/
def launch (p : Params) (fill : Nat → Word) (bytes : List Byte) (queued : List Word) : Result :=
  launchWith (defaultWatchdog p.wdLimit) p fill bytes queued

/-- A new launch with the default strategy. -/
def relaunch (fill : Nat → Word) (bytes : List Byte) (s : State) : Result :=
  relaunchWith (defaultWatchdog s.params.wdLimit) fill bytes s

/-- The host appends Words to `in_stream`: the one thing it may do during a run (R25). -/
def Plugged.State.hostSupply (ws : List Word) (s : Plugged.State W D) : Plugged.State W D :=
  { s with inStream := s.inStream ++ ws }

/-- What `run()` returns (R18). -/
inductive TerminationReason (D : Type)
  | halted
  | faulted (reason : FaultRecord D)
deriving DecidableEq, Repr

/-- The termination reason of a state, `none` while `run()` does not return (R18). -/
def terminationReason (s : Plugged.State W D) : Option (TerminationReason D) :=
  match s.engine, s.reason with
  | .halted, _ => some .halted
  | .faulted, some r => some (.faulted r)
  | _, _ => none

end Sys2Proof.Machine
end

