-- ==== Sys2Proof/Machine/Plug.lean ====
section
/-! DEFINITION. The core with the watchdog strategy as an argument, the parameter `WATCHDOG` of R3
(spec/45_watchdog.md R135, R145): the same meanings, concluded with the strategy that is plugged in. The
machine behind the host's interface (Machine/Step.lean) is the one with the default strategy. -/

namespace Sys2Proof.Machine

variable {W D : Type}

/-- How each instruction ends: the meanings that `exec` concludes with the default strategy. -/
def ending (i : Instr) (s : Plugged.State W D) : Ending W D :=
  match i with
  | .halt => haltEnding s
  | .set a b => setEnding a b s
  | .push a => pushEnding a s
  | .pop a => popEnding a s
  | .eq a b c => eqEnding a b c s
  | .gt a b c => gtEnding a b c s
  | .jmp a => jmpEnding a s
  | .jt a b => jtEnding a b s
  | .jf a b => jfEnding a b s
  | .add a b c => addEnding a b c s
  | .mult a b c => multEnding a b c s
  | .mod a b c => modEnding a b c s
  | .and a b c => andEnding a b c s
  | .or a b c => orEnding a b c s
  | .not a b => notEnding a b s
  | .rmem a b => rmemEnding a b s
  | .wmem a b => wmemEnding a b s
  | .call a => callEnding a s
  | .ret => retEnding s
  | .out a => outEnding a s
  | .input a => inputEnding a s
  | .noop => noopEnding s

/-- How a step of a running engine ends (R70): the decoded instruction's ending, or the decode stage's
fault, or the undefined opcode's. -/
def stepEnding (s : Plugged.State W D) : Ending W D :=
  match fetch s with
  | .instr i => ending i s
  | .undefined w => undefinedOpcode w s
  | .ranOut k => fetchOutOfRange k s
  | .invalidOperand k w => fetchInvalidOperand k w s

/-- `step` (R70) with the strategy `wd` plugged in (R145). -/
def stepWith (wd : WatchdogStrategy W D) (s : Plugged.State W D) : Plugged.Result W D :=
  match noStep s with
  | some f => .fault f
  | none => conclude wd s (stepEnding s)

/-- The machine with the strategy `wd` plugged in, from the launch of the empty image with the default
values of the other parameters. -/
def coreWith (wd : WatchdogStrategy W D) : Host.Core :=
  { State := Plugged.State W D
    Fault := Fault
    Refusal := Refusal
    step := stepWith wd
    reset := launchStateWith wd Params.default Config.fill [] [] }

end Sys2Proof.Machine
end

