-- ==== Sys2Proof/Safety.lean ====
section
/-! DEFINITION. The terms claims are stated in: the invariant that every step keeps, what a fault, a
retirement and a written result are as relations between the state before and the state after, and
what of the state a program can see. Written from the spec's rules, not over the model's own
operations. -/

namespace Sys2Proof.Machine

variable {W D : Type}

/-- The address a fault record gives for the faulting instruction; `WatchdogTripped` has none (R150). -/
def FaultRecord.pc? : FaultRecord D → Option Word
  | .undefinedOpcode pc _ => some pc
  | .stackUnderflow pc => some pc
  | .divisionByZero pc => some pc
  | .invalidOperand pc _ _ => some pc
  | .watchdogTripped _ => none
  | .addressOutOfRange pc _ _ => some pc
  | .stackOverflow pc => some pc

/-- The reason names a watchdog trip (R155). -/
def Plugged.State.tripped (s : Plugged.State W D) : Prop :=
  ∃ diagnostic, s.reason = some (.watchdogTripped diagnostic)

/-- What holds of every state of a run with the default strategy. -/
structure Invariant (s : State) : Prop where
  /-- Memory is in its canonical form. -/
  memWf : Memory.wf s.mem
  /-- `WD_LIMIT` is at least 1 (R140). -/
  limitPos : 1 ≤ s.params.wdLimit
  /-- `wd_run` is in [0, WD_LIMIT] (R139). -/
  runBound : s.wdRun ≤ s.params.wdLimit
  /-- A running engine has not reached the limit (R140, R141). -/
  runBelow : s.engine = .running → s.wdRun < s.params.wdLimit
  /-- `reason` is empty exactly while the engine is not Faulted (R17). -/
  reasonIff : s.reason.isSome = true ↔ s.engine = .faulted
  /-- The stack of a finite-depth instance never holds more than `STACK_DEPTH` entries (R21). -/
  depth : ∀ d, s.params.stackDepth = some d → s.stack.length ≤ d
  /-- After every fault but a watchdog trip the pc names the faulting instruction (R162). -/
  faultPc : ∀ r p, s.reason = some r → r.pc? = some p → p = s.pc
  /-- A trip carries the signature, and the run counter stands at the limit (R141). -/
  tripSig : ∀ sig, s.reason = some (.watchdogTripped sig) → sig = s.wdSig ∧ s.wdRun = s.params.wdLimit

/-- `t` is `s` after the fault `r` was raised (R161): nothing else is written. -/
def Raised (r : FaultRecord D) (s t : Plugged.State W D) : Prop :=
  t = { s with engine := .faulted, reason := some r }

/-- Every memory word reads as before. -/
def MemSame (s t : Plugged.State W D) : Prop := ∀ a, Memory.read t.mem a = Memory.read s.mem a

/-- Every memory word but the one at `a` reads as before. -/
def MemSameBut (a : Nat) (s t : Plugged.State W D) : Prop := ∀ b, b ≠ a → Memory.read t.mem b = Memory.read s.mem b

/-- The three streams are as before (R23, R24, R25). -/
def StreamsSame (s t : Plugged.State W D) : Prop :=
  t.outStream = s.outStream ∧ t.inStream = s.inStream ∧ t.diagStream = s.diagStream

/-- The Word the destination `d` holds (R75). -/
def held (d : Operand) (s : Plugged.State W D) : Word :=
  match d with
  | .reg r => s.regs[r]
  | .lit a => Memory.read s.mem a.toNat

/-- The destination is a register (`is_reg`, R5). -/
def isRegDest : Operand → Bool
  | .reg _ => true
  | .lit _ => false

/-- The destination `d` received `v`; every other register and memory word is as before (R75). -/
def Received (d : Operand) (v : Word) (s t : Plugged.State W D) : Prop :=
  match d with
  | .reg r => t.regs[r] = v ∧ (∀ q : Fin 8, q ≠ r → t.regs[q] = s.regs[q]) ∧ MemSame s t
  | .lit a => Memory.read t.mem a.toNat = v ∧ MemSameBut a.toNat s t ∧ t.regs = s.regs

/-- The strategy `wd` was consulted once, with the record `ev`, where the watchdog is enabled (R135, R145):
it saw the registers, memory, stack and pc of `t`, its state is what its sample function gives, and its
trip, which takes the diagnostic into `reason` (R141), is the only way the engine state changes here. -/
def Consulted (wd : WatchdogStrategy W D) (ev : Retirement) (s t : Plugged.State W D) : Prop :=
  if s.params.wdEnable = true then
    t.wd = (wd.sample s.wd ⟨t.regs, t.mem, t.stack, t.pc, ev⟩).1 ∧
    match (wd.sample s.wd ⟨t.regs, t.mem, t.stack, t.pc, ev⟩).2 with
    | some diagnostic => t.engine = .faulted ∧ t.reason = some (.watchdogTripped diagnostic)
    | none => t.engine = s.engine ∧ t.reason = s.reason
  else t.wd = s.wd ∧ t.engine = s.engine ∧ t.reason = s.reason

/-- The default strategy was sampled with the record `(reg, mem, stk)` where it is enabled (R140, R141): the
counters, the run counter, and the trip, which is the only way the engine state changes here. -/
def Sampled (reg mem stk : Bool) (s t : State) : Prop :=
  if s.params.wdEnable = true then
    t.wdSig.regChg = s.wdSig.regChg + (if reg then 1 else 0) ∧
    t.wdSig.memChg = s.wdSig.memChg + (if mem then 1 else 0) ∧
    t.wdSig.stkChg = s.wdSig.stkChg + (if stk then 1 else 0) ∧
    t.wdRun = (if reg || mem || stk then 0 else s.wdRun + 1) ∧
    (if s.params.wdLimit ≤ t.wdRun then
      t.engine = .faulted ∧ t.reason = some (.watchdogTripped t.wdSig)
    else t.engine = s.engine ∧ t.reason = s.reason)
  else
    t.wdSig = s.wdSig ∧ t.wdRun = s.wdRun ∧ t.engine = s.engine ∧ t.reason = s.reason

/-- The instruction retired with the next pc `next` and the record `(reg, mem, stk)` (R78); the
instance's parameters are constants (R19). -/
def Retired (next : Word) (reg mem stk : Bool) (s t : State) : Prop :=
  t.pc = next ∧ t.params = s.params ∧ Sampled reg mem stk s t

/-- The instruction wrote `v` to its destination `d` and retired with the next pc `next` (R75, R78); the
record says whether the register or memory word changed (R136), and `stk` whether it popped. -/
def RetiredWriting (d : Operand) (v next : Word) (stk : Bool) (s t : State) : Prop :=
  Received d v s t ∧
  Retired next (isRegDest d && decide (held d s ≠ v)) (!isRegDest d && decide (held d s ≠ v)) stk s t

/-- What an instruction that writes one result leaves alone: stack and streams. -/
def StackAndStreamsSame (s t : Plugged.State W D) : Prop := t.stack = s.stack ∧ StreamsSame s t

/-- The effect of an ALU or move instruction of `words` words with result `v` (files 42 and 43). -/
def WritesResult (d : Operand) (v words : Word) (s t : State) : Prop :=
  RetiredWriting d v (s.pc + words) false s t ∧ StackAndStreamsSame s t

/-- Registers and memory are as before. -/
def DataSame (s t : Plugged.State W D) : Prop := t.regs = s.regs ∧ MemSame s t

/-- The words `ws` stand in memory from the pc on. -/
def StandsAtPc (ws : List Word) (s : Plugged.State W D) : Prop :=
  ∀ k, k < ws.length → s.pc.toNat + k < Config.memWords ∧ ws[k]? = some (Memory.read s.mem (s.pc.toNat + k))

/-- What a run shows or can depend on, without the watchdog's registers, the engine state and the
parameters (R22). -/
structure Visible where
  regs       : Vector Word 8
  pc         : Word
  stack      : List Word
  mem        : Memory
  outStream  : List Word
  inStream   : List Word
  diagStream : List DiagEvent

/-- The visible part of a state. -/
def Plugged.State.visible (s : Plugged.State W D) : Visible :=
  { regs := s.regs, pc := s.pc, stack := s.stack, mem := s.mem
    outStream := s.outStream, inStream := s.inStream, diagStream := s.diagStream }

/-- The record without the watchdog's diagnostic, whose type is the strategy's. -/
def FaultRecord.erase : FaultRecord D → FaultRecord Unit
  | .undefinedOpcode pc word => .undefinedOpcode pc word
  | .stackUnderflow pc => .stackUnderflow pc
  | .divisionByZero pc => .divisionByZero pc
  | .invalidOperand pc k word => .invalidOperand pc k word
  | .watchdogTripped _ => .watchdogTripped ()
  | .addressOutOfRange pc addr access => .addressOutOfRange pc addr access
  | .stackOverflow pc => .stackOverflow pc

/-- Two cores, each with its own strategy, that differ in nothing but the watchdog: its strategy and
state, the diagnostic in `reason`, WD_ENABLE and WD_LIMIT. -/
structure SameButWatchdog {V E : Type} (s : Plugged.State W D) (t : Plugged.State V E) : Prop where
  visible : t.visible = s.visible
  engine  : t.engine = s.engine
  reason  : t.reason.map FaultRecord.erase = s.reason.map FaultRecord.erase
  depth   : t.params.stackDepth = s.params.stackDepth
  policy  : t.params.undefPolicy = s.params.undefPolicy

/-- The same machine with other registers of the default strategy, another limit, on or off. -/
def State.withWatchdog (sig : Signature) (run : Nat) (enable : Bool) (limit : Nat) (s : State) : State :=
  { s with wd := { sig := sig, run := run }
           params := { s.params with wdEnable := enable, wdLimit := limit } }

/-- The same machine with words already on its two output records. -/
def Plugged.State.withHistory (out : List Word) (diag : List DiagEvent) (s : Plugged.State W D) :
    Plugged.State W D :=
  { s with outStream := out ++ s.outStream, diagStream := diag ++ s.diagStream }

/-- An outcome with its next state changed by `f`. -/
def mapNext (f : Plugged.State W D → Plugged.State W D) : Plugged.Result W D → Plugged.Result W D
  | .next t => .next (f t)
  | .fault r => .fault r
  | .refused r => .refused r

/-- The instructions that set the pc themselves or leave it (R14): for all others the pc advances by
1 + arity. -/
def setsPc : Instr → Bool
  | .halt => true
  | .jmp _ => true
  | .jt _ _ => true
  | .jf _ _ => true
  | .call _ => true
  | .ret => true
  | .set _ _ => false
  | .push _ => false
  | .pop _ => false
  | .eq _ _ _ => false
  | .gt _ _ _ => false
  | .add _ _ _ => false
  | .mult _ _ _ => false
  | .mod _ _ _ => false
  | .and _ _ _ => false
  | .or _ _ _ => false
  | .not _ _ => false
  | .rmem _ _ => false
  | .wmem _ _ => false
  | .out _ => false
  | .input _ => false
  | .noop => false

end Sys2Proof.Machine
end

