-- ==== Sys2Proof/Certificates/Slice0/Obligations.lean ====
section
/-! DEFINITION. The statements about the model, each one a rule of spec/ or a consequence of its rules.
Where a clause rests on a decision the spec marks as its own (92_eei_decisions.md D1 to D28), the
docstring names it. `Retired`, in the statements of single instructions, says the next pc and what the
watchdog's default strategy does with the retirement, which is the spec's decision D19; that the formulas
of the ALU hold for inputs above 32767 as they are written is its decision D13, a finite stack its
decision D14, 16-bit cells its decision D2. -/

open Sys2Proof Sys2Proof.Machine

/-! ## Encoding and decoding -/

/-- Decoding the words of a well-formed instruction, whatever follows them, gives the instruction back
(30_encoding.md sections 1 to 5). -/
def Obligations.DecodeOfEncodeIsIdentity : Prop :=
  ∀ (i : Instr) (rest : List Word), i.wf = true → decode (encode i ++ rest) = .instr i

/-- The other direction: what decodes to an instruction starts with that instruction's words, and the
instruction is well formed, so no two encodings mean the same (30_encoding.md sections 1 to 5). -/
def Obligations.DecodedWordsAreTheEncoding : Prop :=
  ∀ (ws : List Word) (i : Instr), decode ws = .instr i → i.wf = true ∧ encode i <+: ws

/-- Words written out from the spec: the example of R51 and one of each family from
95_test_vectors.md decode to what they stand for. -/
def Obligations.SpecExampleWordsDecode : Prop :=
  decode [9, 32768, 32769, 5] = .instr (.add (.reg 0) (.reg 1) (.lit 5)) ∧
  decode [0] = .instr .halt ∧
  decode [1, 32775, 9] = .instr (.set (.reg 7) (.lit 9)) ∧
  decode [4, 32768, 32769, 4] = .instr (.eq (.reg 0) (.reg 1) (.lit 4)) ∧
  decode [16, 100, 32769] = .instr (.wmem (.lit 100) (.reg 1)) ∧
  decode [7, 32768, 20] = .instr (.jt (.reg 0) (.lit 20)) ∧
  decode [20, 32768] = .instr (.input (.reg 0))

/-- R53: the class of an operand word is decided by its value alone. -/
def Obligations.OperandWordClasses : Prop :=
  ∀ w : Word,
    (decodeOperand w = some (.lit w) ↔ w.toNat ≤ 32767) ∧
    (∀ r : Fin 8, decodeOperand w = some (.reg r) ↔ w.toNat = 32768 + r.val) ∧
    (decodeOperand w = none ↔ 32776 ≤ w.toNat)

/-- R57: the words in [22, 65535], and no others, are undefined opcodes, whatever follows them. That an
opcode word above 32767 is one too is the spec's decision D7. -/
def Obligations.UndefinedOpcodeWords : Prop :=
  ∀ (w : Word) (rest : List Word), decode (w :: rest) = .undefined w ↔ 22 ≤ w.toNat

/-- R74, R77: the value of an operand word is the word itself when it is a literal, else the content
of the register it names, substituted once. -/
def Obligations.OperandValueResolvedOnce : Prop :=
  ∀ (w : Word) (o : Operand) (s : State), decodeOperand w = some o →
    (w.toNat ≤ 32767 → value o s = w) ∧
    (∀ r : Fin 8, w.toNat = 32768 + r.val → value o s = s.regs[r])

/-! ## The step: fetch and decode -/

/-- R70: where the words of a well-formed instruction stand at the pc of a running engine, the step is
the execution of that instruction and nothing else. -/
def Obligations.StepRunsDecodedInstruction : Prop :=
  ∀ (i : Instr) (s : State), i.wf = true → s.engine = .running → StandsAtPc (encode i) s →
    step s = exec i s

/-- R71: a pc above 32767 faults at the opcode fetch (the spec's decision D3). -/
def Obligations.OpcodeFetchBeyondMemoryFaults : Prop :=
  ∀ s : State, s.engine = .running → 32768 ≤ s.pc.toNat →
    ∃ t, step s = .next t ∧ Raised (.addressOutOfRange s.pc s.pc .fetch) s t

/-- R72, second half of the address rule: where the first `k` words of an instruction stand at the end
of memory, operand word `k` is fetched from address 32768, which faults (the spec's decisions D3 and
D9). -/
def Obligations.OperandFetchBeyondMemoryFaults : Prop :=
  ∀ (i : Instr) (k : Nat) (s : State), i.wf = true → s.engine = .running →
    1 ≤ k → k ≤ i.arity → StandsAtPc ((encode i).take k) s → s.pc.toNat + k = 32768 →
    ∃ t, step s = .next t ∧ Raised (.addressOutOfRange s.pc 32768 .fetch) s t

/-- R58: an operand word in [32776, 65535], in any operand position of any defined opcode, makes the
instruction fault with `InvalidOperand`; the words before it are valid here, so that it is the one
reported (the spec's decision D9 for the order). -/
def Obligations.InvalidOperandWordFaults : Prop :=
  ∀ (i : Instr) (k : Nat) (w : Word) (s : State), i.wf = true → s.engine = .running →
    1 ≤ k → k ≤ i.arity → 32776 ≤ w.toNat → StandsAtPc ((encode i).take k ++ [w]) s →
    ∃ t, step s = .next t ∧ Raised (.invalidOperand s.pc k w) s t

/-- R62: the same memory words at the same address always decode to the same instruction, whatever the
rest of the state. -/
def Obligations.DecodeDependsOnWordsAtPcOnly : Prop :=
  ∀ s t : State, s.pc = t.pc →
    (∀ k, k < 4 → Memory.read s.mem (s.pc.toNat + k) = Memory.read t.mem (t.pc.toNat + k)) →
    fetch s = fetch t

/-- R79 with the default policy: an undefined opcode is logged and skipped by one word, and retires
quietly (the spec's decision D8). -/
def Obligations.UndefinedOpcodeIsLoggedAndSkipped : Prop :=
  ∀ s : State, s.engine = .running → s.pc.toNat < 32768 → s.params.undefPolicy = .skip →
    22 ≤ (Memory.read s.mem s.pc.toNat).toNat →
    ∃ t, step s = .next t ∧ Retired (s.pc + 1) false false false s t ∧ DataSame s t ∧
      t.stack = s.stack ∧ t.outStream = s.outStream ∧ t.inStream = s.inStream ∧
      t.diagStream = s.diagStream ++ [.undefinedOpcodeSkipped s.pc (Memory.read s.mem s.pc.toNat)]

/-- R79 with the policy `fault`: an undefined opcode raises `UndefinedOpcode` (the spec's decision D8). -/
def Obligations.UndefinedOpcodeFaultsUnderFaultPolicy : Prop :=
  ∀ s : State, s.engine = .running → s.pc.toNat < 32768 → s.params.undefPolicy = .fault →
    22 ≤ (Memory.read s.mem s.pc.toNat).toNat →
    ∃ t, step s = .next t ∧ Raised (.undefinedOpcode s.pc (Memory.read s.mem s.pc.toNat)) s t

/-! ## Control flow -/

/-- R90: `halt` makes the engine Halted and changes nothing else; that the pc stays at the `halt` is the
spec's decision D11. -/
def Obligations.HaltStopsTheEngine : Prop :=
  ∀ s : State, exec .halt s = .next { s with engine := .halted }

/-- R91: `jmp` sets the pc to its value, changes nothing else and retires quietly. -/
def Obligations.JmpSetsPc : Prop :=
  ∀ (a : Operand) (s : State),
    ∃ t, exec (.jmp a) s = .next t ∧ Retired (value a s) false false false s t ∧ DataSame s t ∧
      StackAndStreamsSame s t

/-- R92: `jt` jumps when the whole 16-bit value is not 0, else the pc advances by 3. -/
def Obligations.JtJumpsOnNonZero : Prop :=
  ∀ (a b : Operand) (s : State),
    ∃ t, exec (.jt a b) s = .next t ∧
      Retired (if (value a s).toNat = 0 then s.pc + 3 else value b s) false false false s t ∧
      DataSame s t ∧ StackAndStreamsSame s t

/-- R93: `jf` jumps when the whole 16-bit value is 0, else the pc advances by 3. -/
def Obligations.JfJumpsOnZero : Prop :=
  ∀ (a b : Operand) (s : State),
    ∃ t, exec (.jf a b) s = .next t ∧
      Retired (if (value a s).toNat = 0 then value b s else s.pc + 3) false false false s t ∧
      DataSame s t ∧ StackAndStreamsSame s t

/-- R94: `call` pushes `pc + 2` and sets the pc to its value; in an instance of finite depth whose
stack is full it raises `StackOverflow`. -/
def Obligations.CallPushesReturnAddress : Prop :=
  ∀ (a : Operand) (s : State),
    (s.params.stackDepth = some s.stack.length →
      ∃ t, exec (.call a) s = .next t ∧ Raised (.stackOverflow s.pc) s t) ∧
    (s.params.stackDepth ≠ some s.stack.length →
      ∃ t, exec (.call a) s = .next t ∧ Retired (value a s) false false true s t ∧
        t.stack = s.stack ++ [s.pc + 2] ∧ DataSame s t ∧ StreamsSame s t)

/-- R95: `ret` pops the top Word into the pc; on an empty stack it halts, and that the pc then stays at
the `ret` is the spec's decision D11. -/
def Obligations.RetPopsPcOrHalts : Prop :=
  ∀ s : State,
    (s.stack = [] → exec .ret s = .next { s with engine := .halted }) ∧
    (∀ rest w, s.stack = rest ++ [w] →
      ∃ t, exec .ret s = .next t ∧ Retired w false false true s t ∧ t.stack = rest ∧
        DataSame s t ∧ StreamsSame s t)

/-- R96: `noop` advances the pc by 1, changes nothing else and retires quietly. -/
def Obligations.NoopOnlyAdvancesPc : Prop :=
  ∀ s : State,
    ∃ t, exec .noop s = .next t ∧ Retired (s.pc + 1) false false false s t ∧ DataSame s t ∧
      StackAndStreamsSame s t

/-- R97: for `jmp`, a taken `jt`, a taken `jf`, `call` (with room on the stack) and `ret` on a non-empty
stack the new pc is exactly the target, with no default advance added. -/
def Obligations.TransfersSetPcExactly : Prop :=
  ∀ (a b : Operand) (s : State),
    (∃ t, exec (.jmp a) s = .next t ∧ t.pc = value a s) ∧
    (value a s ≠ 0 → ∃ t, exec (.jt a b) s = .next t ∧ t.pc = value b s) ∧
    (value a s = 0 → ∃ t, exec (.jf a b) s = .next t ∧ t.pc = value b s) ∧
    (s.params.stackDepth ≠ some s.stack.length →
      ∃ t, exec (.call a) s = .next t ∧ t.pc = value a s) ∧
    (∀ rest w, s.stack = rest ++ [w] → ∃ t, exec .ret s = .next t ∧ t.pc = w)

/-! ## Data movement -/

/-- R100: `set` writes the value of `b` to the destination `a`. That a literal `a` names a memory word is
the spec's decision D6. -/
def Obligations.SetCopiesValue : Prop :=
  ∀ (a b : Operand) (s : State), a.wf = true → Memory.wf s.mem →
    ∃ t, exec (.set a b) s = .next t ∧ WritesResult a (value b s) 3 s t

/-- R101: `push` appends the full 16-bit value at the top of the stack; in an instance of finite depth
whose stack is full it raises `StackOverflow`. -/
def Obligations.PushAppendsValue : Prop :=
  ∀ (a : Operand) (s : State),
    (s.params.stackDepth = some s.stack.length →
      ∃ t, exec (.push a) s = .next t ∧ Raised (.stackOverflow s.pc) s t) ∧
    (s.params.stackDepth ≠ some s.stack.length →
      ∃ t, exec (.push a) s = .next t ∧ Retired (s.pc + 2) false false true s t ∧
        t.stack = s.stack ++ [value a s] ∧ DataSame s t ∧ StreamsSame s t)

/-- R102: `pop` raises `StackUnderflow` on an empty stack, else moves the top Word to its destination;
the retirement counts as a stack change. -/
def Obligations.PopMovesTopOrUnderflows : Prop :=
  ∀ (a : Operand) (s : State), a.wf = true → Memory.wf s.mem →
    (s.stack = [] → ∃ t, exec (.pop a) s = .next t ∧ Raised (.stackUnderflow s.pc) s t) ∧
    (∀ rest w, s.stack = rest ++ [w] →
      ∃ t, exec (.pop a) s = .next t ∧ RetiredWriting a w (s.pc + 2) true s t ∧ t.stack = rest ∧
        StreamsSame s t)

/-- R103: `rmem` copies the memory word at its value, unmodified, to the destination; an address above
32767 raises `AddressOutOfRange` (the spec's decision D4). -/
def Obligations.RmemReadsMemory : Prop :=
  ∀ (a b : Operand) (s : State), a.wf = true → Memory.wf s.mem →
    (32768 ≤ (value b s).toNat →
      ∃ t, exec (.rmem a b) s = .next t ∧ Raised (.addressOutOfRange s.pc (value b s) .read) s t) ∧
    ((value b s).toNat < 32768 →
      ∃ t, exec (.rmem a b) s = .next t ∧
        WritesResult a (Memory.read s.mem (value b s).toNat) 3 s t)

/-- R104: `wmem` stores the value of `b` at the address that `a` resolves to; every other word and every
register is as before. An address above 32767 raises `AddressOutOfRange` (the spec's decision D4). -/
def Obligations.WmemWritesMemory : Prop :=
  ∀ (a b : Operand) (s : State), Memory.wf s.mem →
    (32768 ≤ (value a s).toNat →
      ∃ t, exec (.wmem a b) s = .next t ∧ Raised (.addressOutOfRange s.pc (value a s) .write) s t) ∧
    ((value a s).toNat < 32768 →
      ∃ t, exec (.wmem a b) s = .next t ∧
        Memory.read t.mem (value a s).toNat = value b s ∧ MemSameBut (value a s).toNat s t ∧
        t.regs = s.regs ∧ StackAndStreamsSame s t ∧
        Retired (s.pc + 3) false
          (decide (Memory.read s.mem (value a s).toNat ≠ value b s)) false s t)

/-! ## Comparison, arithmetic, bitwise -/

/-- R112: `eq` writes 1 when the 16-bit values are equal, else 0. -/
def Obligations.EqWritesEquality : Prop :=
  ∀ (a b c : Operand) (s : State), a.wf = true → Memory.wf s.mem →
    ∃ t, exec (.eq a b c) s = .next t ∧
      WritesResult a (if (value b s).toNat = (value c s).toNat then 1 else 0) 4 s t

/-- R113: `gt` writes 1 when value(b) exceeds value(c) as a natural, else 0. -/
def Obligations.GtWritesUnsignedComparison : Prop :=
  ∀ (a b c : Operand) (s : State), a.wf = true → Memory.wf s.mem →
    ∃ t, exec (.gt a b c) s = .next t ∧
      WritesResult a (if (value c s).toNat < (value b s).toNat then 1 else 0) 4 s t

/-- R114: `add` writes the exact sum modulo 32768. -/
def Obligations.AddWritesSumModulo32768 : Prop :=
  ∀ (a b c : Operand) (s : State), a.wf = true → Memory.wf s.mem →
    ∃ t, exec (.add a b c) s = .next t ∧
      WritesResult a (BitVec.ofNat 16 (((value b s).toNat + (value c s).toNat) % 32768)) 4 s t

/-- R115: `mult` writes the exact product modulo 32768. -/
def Obligations.MultWritesProductModulo32768 : Prop :=
  ∀ (a b c : Operand) (s : State), a.wf = true → Memory.wf s.mem →
    ∃ t, exec (.mult a b c) s = .next t ∧
      WritesResult a (BitVec.ofNat 16 (((value b s).toNat * (value c s).toNat) % 32768)) 4 s t

/-- R116: `mod` raises `DivisionByZero` when the resolved divisor is 0, else writes the remainder, which
is not reduced further. -/
def Obligations.ModWritesRemainderOrFaults : Prop :=
  ∀ (a b c : Operand) (s : State), a.wf = true → Memory.wf s.mem →
    ((value c s).toNat = 0 → ∃ t, exec (.mod a b c) s = .next t ∧ Raised (.divisionByZero s.pc) s t) ∧
    ((value c s).toNat ≠ 0 →
      ∃ t, exec (.mod a b c) s = .next t ∧
        WritesResult a (BitVec.ofNat 16 ((value b s).toNat % (value c s).toNat)) 4 s t)

/-- R117: `and` writes the bitwise and of the 16-bit naturals. -/
def Obligations.AndWritesBitwiseAnd : Prop :=
  ∀ (a b c : Operand) (s : State), a.wf = true → Memory.wf s.mem →
    ∃ t, exec (.and a b c) s = .next t ∧
      WritesResult a (BitVec.ofNat 16 ((value b s).toNat &&& (value c s).toNat)) 4 s t

/-- R118: `or` writes the bitwise or of the 16-bit naturals. -/
def Obligations.OrWritesBitwiseOr : Prop :=
  ∀ (a b c : Operand) (s : State), a.wf = true → Memory.wf s.mem →
    ∃ t, exec (.or a b c) s = .next t ∧
      WritesResult a (BitVec.ofNat 16 ((value b s).toNat ||| (value c s).toNat)) 4 s t

/-- R119: `not` writes 32767 minus the low 15 bits of its value; that bit 15 of the value is dropped is
the spec's decision D12. -/
def Obligations.NotWritesComplementOf15Bits : Prop :=
  ∀ (a b : Operand) (s : State), a.wf = true → Memory.wf s.mem →
    ∃ t, exec (.not a b) s = .next t ∧
      WritesResult a (BitVec.ofNat 16 (32767 - (value b s).toNat % 32768)) 3 s t

/-! ## Input and output -/

/-- R125: `out` appends its 16-bit value to the output stream, changes nothing else and retires quietly
(the spec's decision D17 for the raw Word). -/
def Obligations.OutAppendsWord : Prop :=
  ∀ (a : Operand) (s : State),
    ∃ t, exec (.out a) s = .next t ∧ Retired (s.pc + 2) false false false s t ∧ DataSame s t ∧
      t.stack = s.stack ∧ t.outStream = s.outStream ++ [value a s] ∧ t.inStream = s.inStream ∧
      t.diagStream = s.diagStream

/-- R127: `in` consumes the oldest input Word and stores it, unmodified, in its destination; the
destination counts as changed whatever the Word (the spec's decision D18). -/
def Obligations.InputConsumesOldestWord : Prop :=
  ∀ (a : Operand) (w : Word) (ws : List Word) (s : State), a.wf = true → Memory.wf s.mem →
    s.inStream = w :: ws →
    ∃ t, exec (.input a) s = .next t ∧ Received a w s t ∧
      Retired (s.pc + 2) (isRegDest a) (!isRegDest a) false s t ∧ t.stack = s.stack ∧
      t.inStream = ws ∧ t.outStream = s.outStream ∧ t.diagStream = s.diagStream

/-- R128: at an `in` with no input the engine has no step; once the host supplies Words the same `in`
executes with the first of them (the spec's decision D18; the outcome `inputHold` is the model's way of
saying "no transition", notes/assumptions/6.md). -/
def Obligations.HoldIsLiftedByHostInput : Prop :=
  ∀ (a : Operand) (s : State), s.engine = .running → fetch s = .instr (.input a) →
    Memory.wf s.mem → s.inStream = [] →
    step s = .fault .inputHold ∧
    ∀ w ws, ∃ t, step (s.hostSupply (w :: ws)) = .next t ∧ Received a w s t ∧
      t.pc = s.pc + 2 ∧ t.inStream = ws

/-- R25: only `in` removes from the input queue, one Word at a time, oldest first. -/
def Obligations.OnlyInConsumesInput : Prop :=
  ∀ s t : State, step s = .next t →
    t.inStream = s.inStream ∨
    ∃ a w, fetch s = .instr (.input a) ∧ s.inStream = w :: t.inStream

/-- R23, R126: the output stream only grows, by one Word, at an `out`, and that Word is the value of its
operand. -/
def Obligations.OnlyOutAppendsOutput : Prop :=
  ∀ s t : State, step s = .next t →
    t.outStream = s.outStream ∨
    ∃ a, fetch s = .instr (.out a) ∧ t.outStream = s.outStream ++ [value a s]

/-- R23, R24: the core never reads its output and diagnostic streams: a run with words already on them
is the same run, with those words in front. -/
def Obligations.OutputRecordsAreNeverRead : Prop :=
  ∀ (out : List Word) (diag : List DiagEvent) (s : State),
    step (s.withHistory out diag) = mapNext (Plugged.State.withHistory out diag) (step s)

/-! ## Memory and launch -/

/-- R31: a write makes its address read as the written Word and changes no other cell. -/
def Obligations.MemoryReadAfterWrite : Prop :=
  ∀ (m : Memory) (a : Nat) (v : Word), Memory.wf m → a < 32768 →
    Memory.read (Memory.write m a v) a = v ∧
    ∀ b, b ≠ a → Memory.read (Memory.write m a v) b = Memory.read m b

/-- R43: a store is seen by the next fetch of its address: after a `wmem` the words fetched from there
begin with the stored Word. -/
def Obligations.StoredWordIsFetched : Prop :=
  ∀ (a b : Operand) (s : State) (n : Nat), Memory.wf s.mem → (value a s).toNat < 32768 →
    ∃ t rest, exec (.wmem a b) s = .next t ∧
      wordsAt t.mem (value a s).toNat (n + 1) = value b s :: rest

/-- R33: an accepted image is copied verbatim, low byte first, to the low addresses, and the fill stands
above it. -/
def Obligations.LaunchLoadsImage : Prop :=
  ∀ (p : Params) (fill : Nat → Word) (bytes : List Byte) (queued : List Word) (n : Nat),
    bytes.length = 2 * n → n ≤ 32768 →
    ∃ t, launch p fill bytes queued = .next t ∧
      (∀ i, i < n → (Memory.read t.mem i).toNat =
        (bytes.getD (2 * i) 0).toNat + 256 * (bytes.getD (2 * i + 1) 0).toNat) ∧
      (∀ i, n ≤ i → i < 32768 → Memory.read t.mem i = fill i)

/-- R34: an image of odd length or of more than 65536 bytes is refused (the spec's decision D16). -/
def Obligations.BadImageIsRefused : Prop :=
  ∀ (p : Params) (fill : Nat → Word) (bytes : List Byte) (queued : List Word),
    bytes.length % 2 = 1 ∨ 65536 < bytes.length →
    launch p fill bytes queued = .refused (.imageRefused bytes.length)

/-- R181: a launch sets everything beside memory to its launch value, keeps what the host has queued at
the input port, and the state it gives meets the invariant (the spec's decisions D1, D18, D19, D23,
D25 for the values). -/
def Obligations.LaunchResetsEverythingElse : Prop :=
  ∀ (p : Params) (fill : Nat → Word) (bytes : List Byte) (queued : List Word) (t : State),
    1 ≤ p.wdLimit → launch p fill bytes queued = .next t →
    (∀ r : Fin 8, t.regs[r] = 0) ∧ t.pc = 0 ∧ t.stack = [] ∧ t.engine = .running ∧
    t.reason = none ∧ t.outStream = [] ∧ t.diagStream = [] ∧ t.inStream = queued ∧
    t.wdSig = { regChg := 0, memChg := 0, stkChg := 0 } ∧ t.wdRun = 0 ∧ t.params = p ∧ Invariant t

/-- The model's state after reset is the launch of the empty image with the spec's default parameters
and fill and an empty input queue (R181; that this launch stands for reset is the model's choice,
notes/assumptions/2.md). -/
def Obligations.ResetIsTheEmptyLaunch : Prop :=
  launch Params.default (fun _ => 0) [] [] = .next State.reset

/-- The state after reset meets the invariant that every step keeps. -/
def Obligations.ResetMeetsInvariant : Prop := Invariant State.reset

/-! ## The whole machine -/

/-- Every step keeps the invariant: memory stays canonical and in range, `reason` is set exactly in
Faulted, the run counter stays within its limit, a finite stack within its depth, and the pc of a
stopped run names the faulting instruction. -/
def Obligations.StepKeepsInvariant : Prop :=
  ∀ s t : State, Invariant s → step s = .next t → Invariant t

/-- R16, R164: Halted and Faulted are terminal, the engine has no step (the spec's decision D21). That "no
step" is the outcomes `engineHalted` and `engineFaulted` is the model's choice, notes/assumptions/5.md. -/
def Obligations.TerminalStatesHaveNoStep : Prop :=
  ∀ s : State,
    (s.engine = .halted → step s = .fault .engineHalted) ∧
    (s.engine = .faulted → step s = .fault (.engineFaulted (s.reason.map FaultRecord.code)))

/-- R70, R128: a running engine always has a step, but at an `in` with no input, where it holds and has
none (the spec's decision D18). That this "no transition" is the outcome `inputHold` is the model's choice,
notes/assumptions/6.md. -/
def Obligations.RunningEngineStepsOrHolds : Prop :=
  ∀ s : State, s.engine = .running →
    (∃ t, step s = .next t) ∨
    (∃ a, fetch s = .instr (.input a) ∧ s.inStream = [] ∧ step s = .fault .inputHold)

/-- R195, its second sentence: Halted is reached only by `halt` and by `ret` on an empty stack. -/
def Obligations.HaltedOnlyByHaltOrEmptyRet : Prop :=
  ∀ s t : State, step s = .next t → t.engine = .halted →
    fetch s = .instr .halt ∨ (fetch s = .instr .ret ∧ s.stack = [])

/-- R81, R162: a step that ends in a fault other than a watchdog trip changes nothing but `state` and
`reason` (the spec's decision D10). -/
def Obligations.FaultsArePrecise : Prop :=
  ∀ s t : State, step s = .next t → t.engine = .faulted → ¬ t.tripped →
    ∃ r, Raised r s t ∧ r.pc? = some s.pc

/-- R14: an instruction that does not set the pc itself, and does not fault before it retires, advances
the pc by exactly 1 + arity, which never wraps. -/
def Obligations.DefaultAdvanceIsOnePlusArity : Prop :=
  ∀ (i : Instr) (s t : State), fetch s = .instr i → setsPc i = false → step s = .next t →
    (t.engine = .faulted → t.tripped) →
    t.pc.toNat = s.pc.toNat + 1 + i.arity

/-- R19: the parameters are constants of an instance, no step changes them. -/
def Obligations.NoStepChangesParameters : Prop :=
  ∀ s t : State, step s = .next t → t.params = s.params

/-! ## The watchdog -/

/-- R136, R138: after any instruction but `in`, each enabled counter has moved exactly when the
registers, the memory, the stack have changed (the spec's decision D19). -/
def Obligations.SignatureCountsChanges : Prop :=
  ∀ (i : Instr) (s t : State), Memory.wf s.mem → s.params.wdEnable = true →
    (∀ a, i ≠ .input a) → exec i s = .next t →
    t.wdSig.regChg = s.wdSig.regChg + (if t.regs = s.regs then 0 else 1) ∧
    t.wdSig.memChg = s.wdSig.memChg + (if t.mem = s.mem then 0 else 1) ∧
    t.wdSig.stkChg = s.wdSig.stkChg + (if t.stack = s.stack then 0 else 1)

/-- R137: after a quiet retirement, one at which the signature did not move, registers, memory, stack and
input queue are exactly as before (the spec's decision D19). -/
def Obligations.QuietStepChangesNothing : Prop :=
  ∀ s t : State, Memory.wf s.mem → s.params.wdEnable = true → step s = .next t →
    t.wdSig = s.wdSig →
    t.regs = s.regs ∧ t.mem = s.mem ∧ t.stack = s.stack ∧ t.inStream = s.inStream

/-- R145: the step is the step with the default strategy plugged in, `W = (wd_sig, wd_run)` and the sample
function of R140 (the spec's decision D19). -/
def Obligations.StepPlugsInDefaultStrategy : Prop :=
  ∀ s : State, step s = stepWith (defaultWatchdog s.params.wdLimit) s

/-- R135, R136, R141, R142, R145: whatever strategy is plugged in, it is consulted once at a retirement,
where the watchdog is enabled, with the registers, memory, stack and pc after it and with the record of
what has changed (at an `in`, of its destination), and its trip makes the engine Faulted with its
diagnostic; at a halt and at a fault it is not consulted and its state is as before (the spec's decisions
D19 and D20). -/
def Obligations.StrategyIsConsultedOncePerRetirement : Prop :=
  ∀ (W D : Type) (wd : WatchdogStrategy W D) (s t : Plugged.State W D),
    Memory.wf s.mem → stepWith wd s = .next t →
    (t = { s with engine := .halted } ∧ (fetch s = .instr .halt ∨ (fetch s = .instr .ret ∧ s.stack = []))) ∨
    (∃ r, Raised r s t ∧ r.pc? = some s.pc) ∨
    ∃ ev, Consulted wd ev s t ∧ t.params = s.params ∧
      (∀ a, fetch s = .instr (.input a) → ev = ⟨isRegDest a, !isRegDest a, false⟩) ∧
      ((∀ a, fetch s ≠ .instr (.input a)) →
        ev = ⟨decide (t.regs ≠ s.regs), decide (t.mem ≠ s.mem), decide (t.stack ≠ s.stack)⟩)

/-- R135, R145: the watchdog cannot change a register, memory, the stack, the pc or a stream, and no
opcode's meaning depends on the strategy. Two cores with any two strategies, that differ in nothing but
the watchdog (its state, WD_ENABLE and WD_LIMIT among it), step to states that differ in nothing but the
watchdog; if one of the two tripped, the registers, pc, stack, memory and streams are the same still. -/
def Obligations.WatchdogOnlyEndsRuns : Prop :=
  ∀ (W D V E : Type) (wd : WatchdogStrategy W D) (vd : WatchdogStrategy V E)
    (s t : Plugged.State W D) (s' : Plugged.State V E),
    SameButWatchdog s s' → stepWith wd s = .next t →
    ∃ t', stepWith vd s' = .next t' ∧ t'.visible = t.visible ∧
      (t.tripped ∨ t'.tripped ∨ SameButWatchdog t t')

/-- R143: with `WD_LIMIT` at least 32769 a trip happens only in a run that, without the watchdog, would
never end. The run starts in any state of the invariant whose run counter is 0, as after a launch (the
default strategy is the spec's decision D19). -/
def Obligations.WatchdogTripMeansNonTermination : Prop :=
  ∀ (k : Nat) (s t : State), Invariant s → s.engine = .running → s.wdRun = 0 →
    s.params.wdEnable = true → 32769 ≤ s.params.wdLimit →
    core.run k s = .next t → t.tripped →
    ∀ n, ∃ u : State,
      core.run n (s.withWatchdog s.wdSig 0 false s.params.wdLimit) = .next u ∧ u.engine = .running
end

