-- ==== Sys2Proof/Laws/Decode.lean ====
section
/-! SUPPORT. The laws of the operand decoder and of the opcode map, each way, from which claims about
decoding and encoding are derived. -/

namespace Sys2Proof

/-- An operand's word decodes to it (R53, R63). -/
theorem decodeOperand_encodeOperand {o : Operand} (h : o.wf = true) :
    decodeOperand (encodeOperand o) = some o := by
  cases o with
  | lit v =>
    have hv : v.toNat < 32768 := by simpa [Operand.wf] using h
    simp [decodeOperand, encodeOperand, hv]
  | reg r => revert r; decide

/-- What an operand word decodes to is well formed and has that word (R53). -/
theorem decodeOperand_some {w : Word} {o : Operand} (h : decodeOperand w = some o) :
    o.wf = true ∧ encodeOperand o = w := by
  unfold decodeOperand at h
  split at h
  · rename_i hw
    cases h
    exact ⟨by simpa [Operand.wf] using hw, rfl⟩
  · split at h
    · rename_i hge hlt
      cases h
      refine ⟨rfl, BitVec.eq_of_toNat_eq ?_⟩
      simp only [Config.regBase] at hge ⊢
      simp only [encodeOperand, Config.regBase, BitVec.toNat_ofNat]
      omega
    · cases h

/-- Exactly the words above 32775 are invalid operands (R53, R58). -/
theorem decodeOperand_none_iff (w : Word) : decodeOperand w = none ↔ 32776 ≤ w.toNat := by
  unfold decodeOperand
  split
  · rename_i h; simp only [Config.regBase] at h; simp; omega
  · split <;> rename_i h1 h2 <;> simp only [Config.regBase, Config.numRegs] at h1 h2 <;> simp <;> omega

/-- Operand word `k` of a word list that has one there. -/
theorem withOperand_some {ws : List Word} {k : Nat} {w : Word} (h : ws[k]? = some w)
    (f : Operand → Decoded) :
    withOperand ws k f = match decodeOperand w with | none => .invalidOperand k w | some o => f o := by
  unfold withOperand
  generalize ws[k]? = x at h
  subst h
  rfl

/-- Operand word `k` when it is the word of a well-formed operand. -/
theorem withOperand_encode {ws : List Word} {k : Nat} {o : Operand}
    (h : ws[k]? = some (encodeOperand o)) (ho : o.wf = true) (f : Operand → Decoded) :
    withOperand ws k f = f o := by
  simp only [withOperand, h, decodeOperand_encodeOperand ho]

/-- An instruction comes out of an operand only through its continuation. -/
theorem withOperand_instr {ws : List Word} {k : Nat} {f : Operand → Decoded} {i : Instr}
    (h : withOperand ws k f = .instr i) :
    ∃ o, ws[k]? = some (encodeOperand o) ∧ o.wf = true ∧ f o = .instr i := by
  unfold withOperand at h
  split at h
  · cases h
  · rename_i w hw
    split at h
    · cases h
    · rename_i o ho
      obtain ⟨hwf, rfl⟩ := decodeOperand_some ho
      exact ⟨o, hw, hwf, h⟩

/-- The opcode map is defined exactly on 0 to 21 (R55, R57). -/
theorem opcodeMap_none_iff (n : Nat) : opcodeMap n = none ↔ 22 ≤ n := by
  constructor
  · intro h
    by_contra hn
    have : ∀ m, m < 22 → opcodeMap m ≠ none := by
      intro m hm; interval_cases m <;> simp [opcodeMap]
    exact this n (by omega) h
  · intro h
    unfold opcodeMap
    split <;> first | omega | rfl

/-- The format the opcode map gives an instruction's own opcode, applied to its operands, is that
instruction (R51, R55). -/
def Format.builds (f : Format) (i : Instr) : Prop :=
  match f with
  | .f0 j => i = j
  | .f1 j => ∃ a, i = j a
  | .f2 j => ∃ a b, i = j a b
  | .f3 j => ∃ a b c, i = j a b c

theorem opcodeMap_opcodeOf (i : Instr) : ∃ f, opcodeMap (opcodeOf i).toNat = some f ∧ f.builds i := by
  cases i <;> exact ⟨_, rfl, by simp [Format.builds]⟩

/-- What the opcode map builds has that opcode. -/
theorem opcodeOf_builds {w : Word} {f : Format} {i : Instr} (h : opcodeMap w.toNat = some f)
    (hb : f.builds i) : opcodeOf i = w := by
  have hlt : w.toNat < 22 := by
    by_contra hn
    rw [(opcodeMap_none_iff _).2 (by omega)] at h; cases h
  apply BitVec.eq_of_toNat_eq
  generalize w.toNat = n at *
  interval_cases n <;> cases h <;> simp only [Format.builds] at hb <;>
    first
    | (subst hb; rfl)
    | (obtain ⟨a, rfl⟩ := hb; rfl)
    | (obtain ⟨a, b, rfl⟩ := hb; rfl)
    | (obtain ⟨a, b, c, rfl⟩ := hb; rfl)

end Sys2Proof
end

