-- ==== Sys2Proof/Laws/Fetch.lean ====
section
/-! SUPPORT. What fetching gives (R61, R71, R72): the words that stand at the pc, in order, up to the end
of memory. -/

namespace Sys2Proof.Machine

/-- The words fetched from `a` on: word `k` is the memory word at `a + k`, where that address exists. -/
theorem wordsAt_getElem? (m : Memory) (a n k : Nat) :
    (wordsAt m a n)[k]? =
      if k < n ∧ a + k < Config.memWords then some (Memory.read m (a + k)) else none := by
  induction n generalizing a k with
  | zero => simp [wordsAt]
  | succ n ih =>
    simp only [wordsAt]
    split
    · cases k with
      | zero => simp_all
      | succ k =>
        rw [List.getElem?_cons_succ, ih, show a + 1 + k = a + (k + 1) by omega]
        simp
    · rename_i h
      rw [if_neg (by omega)]; simp

/-- The number of words fetched. -/
theorem wordsAt_length (m : Memory) (a n : Nat) :
    (wordsAt m a n).length = min n (Config.memWords - a) := by
  induction n generalizing a with
  | zero => simp [wordsAt]
  | succ n ih =>
    simp only [wordsAt]
    simp only [Config.memWords] at ih ⊢
    split
    · rw [List.length_cons, ih]; omega
    · simp only [List.length_nil]; omega

/-- Words that stand at the pc are what is fetched first. -/
theorem wordsAt_of_stands {ws : List Word} {s : State} (h : StandsAtPc ws s) {n : Nat}
    (hn : ws.length ≤ n) : ∃ rest, wordsAt s.mem s.pc.toNat n = ws ++ rest := by
  refine ⟨(wordsAt s.mem s.pc.toNat n).drop ws.length, ?_⟩
  conv => lhs; rw [← List.take_append_drop ws.length (wordsAt s.mem s.pc.toNat n)]
  congr 1
  apply List.ext_getElem?
  intro k
  rw [List.getElem?_take]
  split
  · rename_i hk
    obtain ⟨ha, hw⟩ := h k hk
    rw [wordsAt_getElem?, if_pos ⟨by omega, ha⟩, hw]
  · rw [List.getElem?_eq_none (by omega)]

/-- Where the memory ends right after the words that stand at the pc, nothing more is fetched. -/
theorem wordsAt_at_end {ws : List Word} {s : State} (h : StandsAtPc ws s) {n : Nat}
    (hn : ws.length ≤ n) (hend : s.pc.toNat + ws.length = Config.memWords) :
    wordsAt s.mem s.pc.toNat n = ws := by
  obtain ⟨rest, hr⟩ := wordsAt_of_stands h hn
  have hl := wordsAt_length s.mem s.pc.toNat n
  rw [hr, List.length_append] at hl
  have : rest = [] := List.eq_nil_of_length_eq_zero (by omega)
  rw [hr, this, List.append_nil]

end Sys2Proof.Machine
end

