-- ==== Sys2Proof/Laws/Memory.lean ====
section
/-! SUPPORT. The laws of the memory operations: reading after writing, and that every operation keeps the
canonical form. -/

namespace Sys2Proof.Machine

theorem Memory.wf_nil : Memory.wf [] := ⟨List.Pairwise.nil, by simp⟩

theorem Memory.wf_tail {c : Nat × Word} {m : Memory} (h : Memory.wf (c :: m)) : Memory.wf m :=
  ⟨(List.pairwise_cons.1 h.1).2, fun d hd => h.2 d (List.mem_cons_of_mem _ hd)⟩

/-- Below the first listed address everything reads as the fill. -/
theorem Memory.read_of_lt (m : Memory) (a : Nat) (h : ∀ c ∈ m, a < c.1) :
    Memory.read m a = Config.fill a := by
  induction m with
  | nil => rfl
  | cons c m ih =>
    have hc := h c (by simp)
    have hne : c.1 ≠ a := by omega
    simp only [Memory.read, if_neg hne]
    exact ih fun d hd => h d (by simp [hd])

theorem Memory.read_cons_self (a : Nat) (v : Word) (m : Memory) (h : ∀ c ∈ m, a < c.1) :
    Memory.read (Memory.cons a v m) a = v := by
  unfold Memory.cons
  split
  · rename_i hv; rw [Memory.read_of_lt m a h, hv]
  · simp [Memory.read]

theorem Memory.read_cons_ne {a b : Nat} (v : Word) (m : Memory) (h : b ≠ a) :
    Memory.read (Memory.cons a v m) b = Memory.read m b := by
  unfold Memory.cons
  split
  · rfl
  · simp [Memory.read, Ne.symm h]

theorem Memory.mem_cons {a : Nat} {v : Word} {m : Memory} {c : Nat × Word}
    (h : c ∈ Memory.cons a v m) : (c = (a, v) ∧ v ≠ Config.fill a) ∨ c ∈ m := by
  unfold Memory.cons at h
  split at h
  · exact .inr h
  · rename_i hv
    rcases List.mem_cons.1 h with rfl | h
    · exact .inl ⟨rfl, hv⟩
    · exact .inr h

theorem Memory.cons_wf {a : Nat} (v : Word) {m : Memory} (hm : Memory.wf m)
    (h : ∀ c ∈ m, a < c.1) (ha : a < Config.memWords) : Memory.wf (Memory.cons a v m) := by
  refine ⟨?_, fun c hc => ?_⟩
  · unfold Memory.cons
    split
    · exact hm.1
    · exact List.pairwise_cons.2 ⟨fun d hd => h d hd, hm.1⟩
  · rcases Memory.mem_cons hc with ⟨rfl, hv⟩ | hc
    · exact ⟨ha, hv⟩
    · exact hm.2 c hc

/-- A write lists no address but the old ones and its own. -/
theorem Memory.mem_write {m : Memory} {a : Nat} {v : Word} {c : Nat × Word}
    (h : c ∈ Memory.write m a v) : c.1 = a ∨ c ∈ m := by
  induction m with
  | nil => rcases Memory.mem_cons h with ⟨rfl, _⟩ | h <;> simp_all
  | cons d m ih =>
    simp only [Memory.write] at h
    split at h
    · rcases Memory.mem_cons h with ⟨rfl, _⟩ | h
      · exact .inl rfl
      · exact .inr h
    · split at h
      · rcases Memory.mem_cons h with ⟨rfl, _⟩ | h
        · exact .inl rfl
        · exact .inr (List.mem_cons_of_mem _ h)
      · rcases List.mem_cons.1 h with rfl | h
        · exact .inr (by simp)
        · rcases ih h with h | h
          · exact .inl h
          · exact .inr (List.mem_cons_of_mem _ h)

/-- Every write to an address that exists keeps the canonical form. -/
theorem Memory.write_wf {m : Memory} (hm : Memory.wf m) {a : Nat} (v : Word)
    (ha : a < Config.memWords) : Memory.wf (Memory.write m a v) := by
  induction m with
  | nil => exact Memory.cons_wf v Memory.wf_nil (by simp) ha
  | cons d m ih =>
    have hd := (List.pairwise_cons.1 hm.1).1
    simp only [Memory.write]
    split
    · rename_i hlt
      refine Memory.cons_wf v hm (fun c hc => ?_) ha
      rcases List.mem_cons.1 hc with rfl | hc
      · exact hlt
      · exact Nat.lt_trans hlt (hd c hc)
    · split
      · rename_i heq
        exact Memory.cons_wf v (Memory.wf_tail hm) (fun c hc => heq ▸ hd c hc) ha
      · rename_i hlt hne
        have ih := ih (Memory.wf_tail hm)
        refine ⟨List.pairwise_cons.2 ⟨fun c hc => ?_, ih.1⟩, fun c hc => ?_⟩
        · rcases Memory.mem_write hc with h | h
          · omega
          · exact hd c h
        · rcases List.mem_cons.1 hc with rfl | hc
          · exact hm.2 _ (by simp)
          · exact ih.2 c hc

/-- The write law at the written address (R31). -/
theorem Memory.read_write_self {m : Memory} (hm : Memory.wf m) (a : Nat) (v : Word) :
    Memory.read (Memory.write m a v) a = v := by
  induction m with
  | nil => exact Memory.read_cons_self a v [] (by simp)
  | cons d m ih =>
    have hd := (List.pairwise_cons.1 hm.1).1
    simp only [Memory.write]
    split
    · rename_i hlt
      refine Memory.read_cons_self a v _ fun c hc => ?_
      rcases List.mem_cons.1 hc with rfl | hc
      · exact hlt
      · exact Nat.lt_trans hlt (hd c hc)
    · split
      · rename_i heq
        exact Memory.read_cons_self a v m fun c hc => heq ▸ hd c hc
      · rename_i hlt hne
        have : d.1 ≠ a := fun h => hne h.symm
        simp only [Memory.read, if_neg this]
        exact ih (Memory.wf_tail hm)

/-- The write law at every other address (R31). -/
theorem Memory.read_write_ne {m : Memory} {a b : Nat} (v : Word) (h : b ≠ a) :
    Memory.read (Memory.write m a v) b = Memory.read m b := by
  induction m with
  | nil => exact Memory.read_cons_ne v [] h
  | cons d m ih =>
    simp only [Memory.write]
    split
    · exact Memory.read_cons_ne v _ h
    · split
      · rename_i heq
        have : d.1 ≠ b := by omega
        rw [Memory.read_cons_ne v m h]
        simp [Memory.read, this]
      · simp only [Memory.read]
        split
        · rfl
        · exact ih

/-- Writing the Word an address already holds leaves the memory as it is. -/
theorem Memory.write_same {m : Memory} (hm : Memory.wf m) (a : Nat) :
    Memory.write m a (Memory.read m a) = m := by
  induction m with
  | nil => simp [Memory.write, Memory.cons, Memory.read]
  | cons d m ih =>
    have hd := (List.pairwise_cons.1 hm.1).1
    have hf := (hm.2 d (by simp)).2
    simp only [Memory.write]
    split
    · rename_i hlt
      have hr : Memory.read (d :: m) a = Config.fill a := Memory.read_of_lt _ _ fun c hc => by
        rcases List.mem_cons.1 hc with rfl | hc
        · exact hlt
        · exact Nat.lt_trans hlt (hd c hc)
      simp [Memory.cons, hr]
    · split
      · rename_i heq
        subst heq
        simp [Memory.read, Memory.cons, hf]
      · rename_i hlt hne
        have : d.1 ≠ a := fun h => hne h.symm
        simp only [Memory.read, if_neg this, ih (Memory.wf_tail hm)]

/-- Placing words keeps the canonical form. -/
theorem placeWords_wf (ws : List Word) (a : Nat) {m : Memory} (hm : Memory.wf m) :
    Memory.wf (placeWords a ws m) := by
  induction ws generalizing a m with
  | nil => exact hm
  | cons w ws ih =>
    simp only [placeWords]
    split
    · rename_i ha; exact ih (a + 1) (Memory.write_wf hm w ha)
    · exact hm

/-! ## The memory a launch makes -/

theorem imageCells_ge (ws : List Word) (a : Nat) : ∀ c ∈ imageCells a ws, a ≤ c.1 ∧ c.1 < a + ws.length := by
  induction ws generalizing a with
  | nil => simp [imageCells]
  | cons w ws ih =>
    intro c hc
    simp only [List.length_cons]
    rcases Memory.mem_cons hc with ⟨rfl, _⟩ | hc
    · exact ⟨Nat.le_refl _, by omega⟩
    · have := ih (a + 1) c hc; omega

theorem fillCells_ge (fill : Nat → Word) (n a : Nat) :
    ∀ c ∈ fillCells fill a n, a ≤ c.1 ∧ c.1 < a + n := by
  induction n generalizing a with
  | zero => simp [fillCells]
  | succ n ih =>
    intro c hc
    rcases Memory.mem_cons hc with ⟨rfl, _⟩ | hc
    · exact ⟨Nat.le_refl _, by omega⟩
    · have := ih (a + 1) c hc; omega

theorem imageCells_wf (ws : List Word) (a : Nat) (h : a + ws.length ≤ Config.memWords) :
    Memory.wf (imageCells a ws) := by
  induction ws generalizing a with
  | nil => exact Memory.wf_nil
  | cons w ws ih =>
    simp only [List.length_cons] at h
    refine Memory.cons_wf w (ih (a + 1) (by omega)) (fun c hc => ?_) (by omega)
    have := imageCells_ge ws (a + 1) c hc; omega

theorem fillCells_wf (fill : Nat → Word) (n a : Nat) (h : a + n ≤ Config.memWords) :
    Memory.wf (fillCells fill a n) := by
  induction n generalizing a with
  | zero => exact Memory.wf_nil
  | succ n ih =>
    refine Memory.cons_wf _ (ih (a + 1) (by omega)) (fun c hc => ?_) (by omega)
    have := fillCells_ge fill n (a + 1) c hc; omega

/-- The memory of a launch is canonical. -/
theorem launchMemory_wf (fill : Nat → Word) (ws : List Word) (h : ws.length ≤ Config.memWords) :
    Memory.wf (launchMemory fill ws) := by
  have hi := imageCells_wf ws 0 (by omega)
  have hf := fillCells_wf fill (Config.memWords - ws.length) ws.length (by omega)
  refine ⟨List.pairwise_append.2 ⟨hi.1, hf.1, fun c hc d hd => ?_⟩, fun c hc => ?_⟩
  · have := imageCells_ge ws 0 c hc
    have := fillCells_ge fill _ _ d hd
    omega
  · rcases List.mem_append.1 hc with hc | hc
    · exact hi.2 c hc
    · exact hf.2 c hc

theorem Memory.read_append (m n : Memory) (a : Nat) :
    Memory.read (m ++ n) a = if a ∈ m.map Prod.fst then Memory.read m a else Memory.read n a := by
  induction m with
  | nil => simp
  | cons c m ih =>
    simp only [List.cons_append, Memory.read, List.map_cons, List.mem_cons]
    by_cases h : c.1 = a
    · simp [h]
    · simp [h, ih, Ne.symm h]

/-- An image cell reads as the image's Word. -/
theorem read_imageCells (ws : List Word) (a i : Nat) (h : i < ws.length) :
    Memory.read (imageCells a ws) (a + i) = ws[i] := by
  induction ws generalizing a i with
  | nil => simp at h
  | cons w ws ih =>
    cases i with
    | zero =>
      refine Memory.read_cons_self a w _ fun c hc => ?_
      have := imageCells_ge ws (a + 1) c hc; omega
    | succ i =>
      have hne : a + (i + 1) ≠ a := by omega
      rw [imageCells, Memory.read_cons_ne w _ hne, show a + (i + 1) = a + 1 + i by omega]
      exact ih (a + 1) i (by simpa using h)

/-- A cell of the fill reads as the fill. -/
theorem read_fillCells (fill : Nat → Word) (n a i : Nat) (h : i < n) :
    Memory.read (fillCells fill a n) (a + i) = fill (a + i) := by
  induction n generalizing a i with
  | zero => omega
  | succ n ih =>
    cases i with
    | zero =>
      refine Memory.read_cons_self a (fill a) _ fun c hc => ?_
      have := fillCells_ge fill n (a + 1) c hc; omega
    | succ i =>
      have hne : a + (i + 1) ≠ a := by omega
      rw [fillCells, Memory.read_cons_ne _ _ hne, show a + (i + 1) = a + 1 + i by omega]
      exact ih (a + 1) i (by omega)

/-- The default fill lists nothing. -/
theorem fillCells_default (n a : Nat) : fillCells Config.fill a n = [] := by
  induction n generalizing a with
  | zero => rfl
  | succ n ih => simp [fillCells, Memory.cons, ih]

/-- The launch of the empty image with the default fill lists nothing. -/
theorem launchMemory_default : launchMemory (fun _ => 0) [] = [] := by
  rw [show (fun _ => 0) = Config.fill from rfl, launchMemory, fillCells_default]; rfl

end Sys2Proof.Machine
end

