-- ==== Sys2Proof/Laws/State.lean ====
section
/-! SUPPORT. What each named update of State does to each field, true by rfl, so that no later proof
unfolds a record update. -/

namespace Sys2Proof.Machine

variable {W D : Type} (s : Plugged.State W D)


@[simp] theorem Plugged.State.setReg_regs (r : Fin 8) (v : Word) : (s.setReg r v).regs = s.regs.set r v := rfl
@[simp] theorem Plugged.State.setReg_pc (r : Fin 8) (v : Word) : (s.setReg r v).pc = s.pc := rfl
@[simp] theorem Plugged.State.setReg_stack (r : Fin 8) (v : Word) : (s.setReg r v).stack = s.stack := rfl
@[simp] theorem Plugged.State.setReg_mem (r : Fin 8) (v : Word) : (s.setReg r v).mem = s.mem := rfl
@[simp] theorem Plugged.State.setReg_engine (r : Fin 8) (v : Word) : (s.setReg r v).engine = s.engine := rfl
@[simp] theorem Plugged.State.setReg_reason (r : Fin 8) (v : Word) : (s.setReg r v).reason = s.reason := rfl
@[simp] theorem Plugged.State.setReg_outStream (r : Fin 8) (v : Word) : (s.setReg r v).outStream = s.outStream := rfl
@[simp] theorem Plugged.State.setReg_inStream (r : Fin 8) (v : Word) : (s.setReg r v).inStream = s.inStream := rfl
@[simp] theorem Plugged.State.setReg_diagStream (r : Fin 8) (v : Word) : (s.setReg r v).diagStream = s.diagStream := rfl
@[simp] theorem Plugged.State.setReg_wd (r : Fin 8) (v : Word) : (s.setReg r v).wd = s.wd := rfl
@[simp] theorem Plugged.State.setReg_params (r : Fin 8) (v : Word) : (s.setReg r v).params = s.params := rfl

@[simp] theorem Plugged.State.setMem_regs (a : Nat) (v : Word) : (s.setMem a v).regs = s.regs := rfl
@[simp] theorem Plugged.State.setMem_pc (a : Nat) (v : Word) : (s.setMem a v).pc = s.pc := rfl
@[simp] theorem Plugged.State.setMem_stack (a : Nat) (v : Word) : (s.setMem a v).stack = s.stack := rfl
@[simp] theorem Plugged.State.setMem_mem (a : Nat) (v : Word) : (s.setMem a v).mem = Memory.write s.mem a v := rfl
@[simp] theorem Plugged.State.setMem_engine (a : Nat) (v : Word) : (s.setMem a v).engine = s.engine := rfl
@[simp] theorem Plugged.State.setMem_reason (a : Nat) (v : Word) : (s.setMem a v).reason = s.reason := rfl
@[simp] theorem Plugged.State.setMem_outStream (a : Nat) (v : Word) : (s.setMem a v).outStream = s.outStream := rfl
@[simp] theorem Plugged.State.setMem_inStream (a : Nat) (v : Word) : (s.setMem a v).inStream = s.inStream := rfl
@[simp] theorem Plugged.State.setMem_diagStream (a : Nat) (v : Word) : (s.setMem a v).diagStream = s.diagStream := rfl
@[simp] theorem Plugged.State.setMem_wd (a : Nat) (v : Word) : (s.setMem a v).wd = s.wd := rfl
@[simp] theorem Plugged.State.setMem_params (a : Nat) (v : Word) : (s.setMem a v).params = s.params := rfl

@[simp] theorem Plugged.State.setPc_regs (t : Word) : (s.setPc t).regs = s.regs := rfl
@[simp] theorem Plugged.State.setPc_pc (t : Word) : (s.setPc t).pc = t := rfl
@[simp] theorem Plugged.State.setPc_stack (t : Word) : (s.setPc t).stack = s.stack := rfl
@[simp] theorem Plugged.State.setPc_mem (t : Word) : (s.setPc t).mem = s.mem := rfl
@[simp] theorem Plugged.State.setPc_engine (t : Word) : (s.setPc t).engine = s.engine := rfl
@[simp] theorem Plugged.State.setPc_reason (t : Word) : (s.setPc t).reason = s.reason := rfl
@[simp] theorem Plugged.State.setPc_outStream (t : Word) : (s.setPc t).outStream = s.outStream := rfl
@[simp] theorem Plugged.State.setPc_inStream (t : Word) : (s.setPc t).inStream = s.inStream := rfl
@[simp] theorem Plugged.State.setPc_diagStream (t : Word) : (s.setPc t).diagStream = s.diagStream := rfl
@[simp] theorem Plugged.State.setPc_wd (t : Word) : (s.setPc t).wd = s.wd := rfl
@[simp] theorem Plugged.State.setPc_params (t : Word) : (s.setPc t).params = s.params := rfl

@[simp] theorem Plugged.State.pushWord_regs (v : Word) : (s.pushWord v).regs = s.regs := rfl
@[simp] theorem Plugged.State.pushWord_pc (v : Word) : (s.pushWord v).pc = s.pc := rfl
@[simp] theorem Plugged.State.pushWord_stack (v : Word) : (s.pushWord v).stack = s.stack ++ [v] := rfl
@[simp] theorem Plugged.State.pushWord_mem (v : Word) : (s.pushWord v).mem = s.mem := rfl
@[simp] theorem Plugged.State.pushWord_engine (v : Word) : (s.pushWord v).engine = s.engine := rfl
@[simp] theorem Plugged.State.pushWord_reason (v : Word) : (s.pushWord v).reason = s.reason := rfl
@[simp] theorem Plugged.State.pushWord_outStream (v : Word) : (s.pushWord v).outStream = s.outStream := rfl
@[simp] theorem Plugged.State.pushWord_inStream (v : Word) : (s.pushWord v).inStream = s.inStream := rfl
@[simp] theorem Plugged.State.pushWord_diagStream (v : Word) : (s.pushWord v).diagStream = s.diagStream := rfl
@[simp] theorem Plugged.State.pushWord_wd (v : Word) : (s.pushWord v).wd = s.wd := rfl
@[simp] theorem Plugged.State.pushWord_params (v : Word) : (s.pushWord v).params = s.params := rfl

@[simp] theorem Plugged.State.dropTop_regs : (s.dropTop).regs = s.regs := rfl
@[simp] theorem Plugged.State.dropTop_pc : (s.dropTop).pc = s.pc := rfl
@[simp] theorem Plugged.State.dropTop_stack : (s.dropTop).stack = s.stack.dropLast := rfl
@[simp] theorem Plugged.State.dropTop_mem : (s.dropTop).mem = s.mem := rfl
@[simp] theorem Plugged.State.dropTop_engine : (s.dropTop).engine = s.engine := rfl
@[simp] theorem Plugged.State.dropTop_reason : (s.dropTop).reason = s.reason := rfl
@[simp] theorem Plugged.State.dropTop_outStream : (s.dropTop).outStream = s.outStream := rfl
@[simp] theorem Plugged.State.dropTop_inStream : (s.dropTop).inStream = s.inStream := rfl
@[simp] theorem Plugged.State.dropTop_diagStream : (s.dropTop).diagStream = s.diagStream := rfl
@[simp] theorem Plugged.State.dropTop_wd : (s.dropTop).wd = s.wd := rfl
@[simp] theorem Plugged.State.dropTop_params : (s.dropTop).params = s.params := rfl

@[simp] theorem Plugged.State.emitOut_regs (v : Word) : (s.emitOut v).regs = s.regs := rfl
@[simp] theorem Plugged.State.emitOut_pc (v : Word) : (s.emitOut v).pc = s.pc := rfl
@[simp] theorem Plugged.State.emitOut_stack (v : Word) : (s.emitOut v).stack = s.stack := rfl
@[simp] theorem Plugged.State.emitOut_mem (v : Word) : (s.emitOut v).mem = s.mem := rfl
@[simp] theorem Plugged.State.emitOut_engine (v : Word) : (s.emitOut v).engine = s.engine := rfl
@[simp] theorem Plugged.State.emitOut_reason (v : Word) : (s.emitOut v).reason = s.reason := rfl
@[simp] theorem Plugged.State.emitOut_outStream (v : Word) : (s.emitOut v).outStream = s.outStream ++ [v] := rfl
@[simp] theorem Plugged.State.emitOut_inStream (v : Word) : (s.emitOut v).inStream = s.inStream := rfl
@[simp] theorem Plugged.State.emitOut_diagStream (v : Word) : (s.emitOut v).diagStream = s.diagStream := rfl
@[simp] theorem Plugged.State.emitOut_wd (v : Word) : (s.emitOut v).wd = s.wd := rfl
@[simp] theorem Plugged.State.emitOut_params (v : Word) : (s.emitOut v).params = s.params := rfl

@[simp] theorem Plugged.State.emitDiag_regs (e : DiagEvent) : (s.emitDiag e).regs = s.regs := rfl
@[simp] theorem Plugged.State.emitDiag_pc (e : DiagEvent) : (s.emitDiag e).pc = s.pc := rfl
@[simp] theorem Plugged.State.emitDiag_stack (e : DiagEvent) : (s.emitDiag e).stack = s.stack := rfl
@[simp] theorem Plugged.State.emitDiag_mem (e : DiagEvent) : (s.emitDiag e).mem = s.mem := rfl
@[simp] theorem Plugged.State.emitDiag_engine (e : DiagEvent) : (s.emitDiag e).engine = s.engine := rfl
@[simp] theorem Plugged.State.emitDiag_reason (e : DiagEvent) : (s.emitDiag e).reason = s.reason := rfl
@[simp] theorem Plugged.State.emitDiag_outStream (e : DiagEvent) : (s.emitDiag e).outStream = s.outStream := rfl
@[simp] theorem Plugged.State.emitDiag_inStream (e : DiagEvent) : (s.emitDiag e).inStream = s.inStream := rfl
@[simp] theorem Plugged.State.emitDiag_diagStream (e : DiagEvent) : (s.emitDiag e).diagStream = s.diagStream ++ [e] := rfl
@[simp] theorem Plugged.State.emitDiag_wd (e : DiagEvent) : (s.emitDiag e).wd = s.wd := rfl
@[simp] theorem Plugged.State.emitDiag_params (e : DiagEvent) : (s.emitDiag e).params = s.params := rfl

@[simp] theorem Plugged.State.dropInput_regs : (s.dropInput).regs = s.regs := rfl
@[simp] theorem Plugged.State.dropInput_pc : (s.dropInput).pc = s.pc := rfl
@[simp] theorem Plugged.State.dropInput_stack : (s.dropInput).stack = s.stack := rfl
@[simp] theorem Plugged.State.dropInput_mem : (s.dropInput).mem = s.mem := rfl
@[simp] theorem Plugged.State.dropInput_engine : (s.dropInput).engine = s.engine := rfl
@[simp] theorem Plugged.State.dropInput_reason : (s.dropInput).reason = s.reason := rfl
@[simp] theorem Plugged.State.dropInput_outStream : (s.dropInput).outStream = s.outStream := rfl
@[simp] theorem Plugged.State.dropInput_inStream : (s.dropInput).inStream = s.inStream.tail := rfl
@[simp] theorem Plugged.State.dropInput_diagStream : (s.dropInput).diagStream = s.diagStream := rfl
@[simp] theorem Plugged.State.dropInput_wd : (s.dropInput).wd = s.wd := rfl
@[simp] theorem Plugged.State.dropInput_params : (s.dropInput).params = s.params := rfl

@[simp] theorem Plugged.State.setWatchdog_regs (w : W) : (s.setWatchdog w).regs = s.regs := rfl
@[simp] theorem Plugged.State.setWatchdog_pc (w : W) : (s.setWatchdog w).pc = s.pc := rfl
@[simp] theorem Plugged.State.setWatchdog_stack (w : W) : (s.setWatchdog w).stack = s.stack := rfl
@[simp] theorem Plugged.State.setWatchdog_mem (w : W) : (s.setWatchdog w).mem = s.mem := rfl
@[simp] theorem Plugged.State.setWatchdog_engine (w : W) : (s.setWatchdog w).engine = s.engine := rfl
@[simp] theorem Plugged.State.setWatchdog_reason (w : W) : (s.setWatchdog w).reason = s.reason := rfl
@[simp] theorem Plugged.State.setWatchdog_outStream (w : W) : (s.setWatchdog w).outStream = s.outStream := rfl
@[simp] theorem Plugged.State.setWatchdog_inStream (w : W) : (s.setWatchdog w).inStream = s.inStream := rfl
@[simp] theorem Plugged.State.setWatchdog_diagStream (w : W) : (s.setWatchdog w).diagStream = s.diagStream := rfl
@[simp] theorem Plugged.State.setWatchdog_wd (w : W) : (s.setWatchdog w).wd = w := rfl
@[simp] theorem Plugged.State.setWatchdog_params (w : W) : (s.setWatchdog w).params = s.params := rfl

@[simp] theorem Plugged.State.raise_regs (r : FaultRecord D) : (s.raise r).regs = s.regs := rfl
@[simp] theorem Plugged.State.raise_pc (r : FaultRecord D) : (s.raise r).pc = s.pc := rfl
@[simp] theorem Plugged.State.raise_stack (r : FaultRecord D) : (s.raise r).stack = s.stack := rfl
@[simp] theorem Plugged.State.raise_mem (r : FaultRecord D) : (s.raise r).mem = s.mem := rfl
@[simp] theorem Plugged.State.raise_engine (r : FaultRecord D) : (s.raise r).engine = .faulted := rfl
@[simp] theorem Plugged.State.raise_reason (r : FaultRecord D) : (s.raise r).reason = some r := rfl
@[simp] theorem Plugged.State.raise_outStream (r : FaultRecord D) : (s.raise r).outStream = s.outStream := rfl
@[simp] theorem Plugged.State.raise_inStream (r : FaultRecord D) : (s.raise r).inStream = s.inStream := rfl
@[simp] theorem Plugged.State.raise_diagStream (r : FaultRecord D) : (s.raise r).diagStream = s.diagStream := rfl
@[simp] theorem Plugged.State.raise_wd (r : FaultRecord D) : (s.raise r).wd = s.wd := rfl
@[simp] theorem Plugged.State.raise_params (r : FaultRecord D) : (s.raise r).params = s.params := rfl

@[simp] theorem Plugged.State.haltEngine_regs : (s.haltEngine).regs = s.regs := rfl
@[simp] theorem Plugged.State.haltEngine_pc : (s.haltEngine).pc = s.pc := rfl
@[simp] theorem Plugged.State.haltEngine_stack : (s.haltEngine).stack = s.stack := rfl
@[simp] theorem Plugged.State.haltEngine_mem : (s.haltEngine).mem = s.mem := rfl
@[simp] theorem Plugged.State.haltEngine_engine : (s.haltEngine).engine = .halted := rfl
@[simp] theorem Plugged.State.haltEngine_reason : (s.haltEngine).reason = s.reason := rfl
@[simp] theorem Plugged.State.haltEngine_outStream : (s.haltEngine).outStream = s.outStream := rfl
@[simp] theorem Plugged.State.haltEngine_inStream : (s.haltEngine).inStream = s.inStream := rfl
@[simp] theorem Plugged.State.haltEngine_diagStream : (s.haltEngine).diagStream = s.diagStream := rfl
@[simp] theorem Plugged.State.haltEngine_wd : (s.haltEngine).wd = s.wd := rfl
@[simp] theorem Plugged.State.haltEngine_params : (s.haltEngine).params = s.params := rfl

@[simp] theorem Plugged.State.hostSupply_regs (ws : List Word) : (s.hostSupply ws).regs = s.regs := rfl
@[simp] theorem Plugged.State.hostSupply_pc (ws : List Word) : (s.hostSupply ws).pc = s.pc := rfl
@[simp] theorem Plugged.State.hostSupply_stack (ws : List Word) : (s.hostSupply ws).stack = s.stack := rfl
@[simp] theorem Plugged.State.hostSupply_mem (ws : List Word) : (s.hostSupply ws).mem = s.mem := rfl
@[simp] theorem Plugged.State.hostSupply_engine (ws : List Word) : (s.hostSupply ws).engine = s.engine := rfl
@[simp] theorem Plugged.State.hostSupply_reason (ws : List Word) : (s.hostSupply ws).reason = s.reason := rfl
@[simp] theorem Plugged.State.hostSupply_outStream (ws : List Word) : (s.hostSupply ws).outStream = s.outStream := rfl
@[simp] theorem Plugged.State.hostSupply_inStream (ws : List Word) : (s.hostSupply ws).inStream = s.inStream ++ ws := rfl
@[simp] theorem Plugged.State.hostSupply_diagStream (ws : List Word) : (s.hostSupply ws).diagStream = s.diagStream := rfl
@[simp] theorem Plugged.State.hostSupply_wd (ws : List Word) : (s.hostSupply ws).wd = s.wd := rfl
@[simp] theorem Plugged.State.hostSupply_params (ws : List Word) : (s.hostSupply ws).params = s.params := rfl

end Sys2Proof.Machine
end

