-- ==== Sys2Proof/Laws/Retire.lean ====
section
/-! SUPPORT. What retirement (R78) does: field by field, and as the relation claims are stated in. -/

namespace Sys2Proof.Machine

variable {W D : Type} (wd : WatchdogStrategy W D) (next : Word) (ev : Retirement) (s : Plugged.State W D)

/-- A property of states that holds whatever the watchdog did holds of a retirement. -/
theorem retire_elim {P : Plugged.State W D → Prop} (h0 : P (s.setPc next))
    (h1 : ∀ w, P ((s.setPc next).setWatchdog w))
    (h2 : ∀ w d, P (((s.setPc next).setWatchdog w).raise (.watchdogTripped d))) :
    P (retire wd next ev s) := by
  unfold retire sampleWatchdog
  split
  · simp only
    split
    · exact h1 _
    · exact h2 _ _
  · exact h0

@[simp] theorem retire_regs : (retire wd next ev s).regs = s.regs :=
  retire_elim wd next ev s (P := fun t => t.regs = s.regs) rfl (fun _ => rfl) (fun _ _ => rfl)
@[simp] theorem retire_pc : (retire wd next ev s).pc = next :=
  retire_elim wd next ev s (P := fun t => t.pc = next) rfl (fun _ => rfl) (fun _ _ => rfl)
@[simp] theorem retire_stack : (retire wd next ev s).stack = s.stack :=
  retire_elim wd next ev s (P := fun t => t.stack = s.stack) rfl (fun _ => rfl) (fun _ _ => rfl)
@[simp] theorem retire_mem : (retire wd next ev s).mem = s.mem :=
  retire_elim wd next ev s (P := fun t => t.mem = s.mem) rfl (fun _ => rfl) (fun _ _ => rfl)
@[simp] theorem retire_outStream : (retire wd next ev s).outStream = s.outStream :=
  retire_elim wd next ev s (P := fun t => t.outStream = s.outStream) rfl (fun _ => rfl) (fun _ _ => rfl)
@[simp] theorem retire_inStream : (retire wd next ev s).inStream = s.inStream :=
  retire_elim wd next ev s (P := fun t => t.inStream = s.inStream) rfl (fun _ => rfl) (fun _ _ => rfl)
@[simp] theorem retire_diagStream : (retire wd next ev s).diagStream = s.diagStream :=
  retire_elim wd next ev s (P := fun t => t.diagStream = s.diagStream) rfl (fun _ => rfl) (fun _ _ => rfl)
@[simp] theorem retire_params : (retire wd next ev s).params = s.params :=
  retire_elim wd next ev s (P := fun t => t.params = s.params) rfl (fun _ => rfl) (fun _ _ => rfl)

/-- A retirement consults the strategy once, as claims say it: seen from a state `s` whose watchdog,
engine state, reason and parameters the instruction has not touched (R78, R135, R141). -/
theorem retire_consulted (s u : Plugged.State W D) (hwd : u.wd = s.wd) (heng : u.engine = s.engine)
    (hrea : u.reason = s.reason) (hpar : u.params = s.params) :
    Consulted wd ev s (retire wd next ev u) := by
  unfold Consulted
  simp only [retire_regs, retire_mem, retire_stack, retire_pc]
  unfold retire sampleWatchdog snapshot
  simp only [hpar]
  split
  · simp only [Plugged.State.setPc_regs, Plugged.State.setPc_mem, Plugged.State.setPc_stack,
      Plugged.State.setPc_pc, Plugged.State.setPc_wd, hwd]
    split <;> simp_all
  · exact ⟨hwd, heng, hrea⟩

/-- A counter never keeps its value when its flag is set (R138). -/
theorem countFlag_eq_self (f : Bool) (c : Word) : countFlag f c = c ↔ f = false := by
  cases f
  · simp [countFlag]
  · have h : c + 1#16 ≠ c := by bv_omega
    simp [countFlag, h]

/-- The signature repeats exactly at a quiet retirement (R138). -/
theorem nextSignature_eq_self (sig : Signature) :
    nextSignature ev sig = sig ↔ ev = evNone := by
  cases ev; cases sig
  simp [nextSignature, evNone, countFlag_eq_self]

theorem nextRun_eq (sig : Signature) (run : Nat) :
    nextRun sig (nextSignature ev sig) run = if ev.reg || ev.mem || ev.stk then 0 else run + 1 := by
  have h := nextSignature_eq_self ev sig
  rcases ev with ⟨_ | _, _ | _, _ | _⟩ <;> simp_all [nextRun, evNone]

theorem countFlag_add (f : Bool) (c : Word) : countFlag f c = c + (if f then 1 else 0) := by
  cases f <;> simp [countFlag]

/-- The default strategy's sample (R140), its registers computed as claims state them. -/
theorem wdSample_eq (limit : Nat) (w : WdRegisters) :
    wdSample limit w ev =
      let run := if ev.reg || ev.mem || ev.stk then 0 else w.run + 1
      (⟨nextSignature ev w.sig, run⟩, if limit ≤ run then some (nextSignature ev w.sig) else none) := by
  simp only [wdSample, nextRun_eq]

/-- A retirement with the default strategy is what the claims call one (R78, R140, R141). -/
theorem retire_retired (s u : State) (hwd : u.wd = s.wd) (heng : u.engine = s.engine)
    (hrea : u.reason = s.reason) (hpar : u.params = s.params) :
    Retired next ev.reg ev.mem ev.stk s (retire (defaultWatchdog s.params.wdLimit) next ev u) := by
  refine ⟨retire_pc .., by rw [retire_params, hpar], ?_⟩
  have h := retire_consulted (defaultWatchdog s.params.wdLimit) next ev s u hwd heng hrea hpar
  generalize retire (defaultWatchdog s.params.wdLimit) next ev u = t at h
  unfold Consulted at h
  unfold Sampled
  split at h
  · rename_i he
    simp only [defaultWatchdog, wdSample_eq] at h
    obtain ⟨hw, h⟩ := h
    rw [if_pos he]
    simp only [Plugged.State.wdSig, Plugged.State.wdRun, hw, nextSignature, countFlag_add] at h ⊢
    refine ⟨trivial, trivial, trivial, trivial, ?_⟩
    split at h <;> rename_i hq <;> split at hq <;> simp_all
  · rename_i he
    rw [if_neg he]
    exact ⟨by simp [h.1], by simp [h.1], h.2⟩

end Sys2Proof.Machine
end

