-- ==== Sys2Proof/Laws/Operands.lean ====
section
/-! SUPPORT. What the write of a result does (R75, R136): every case once, and its effect as the relation
claims are stated in. -/

namespace Sys2Proof.Machine

variable {W D : Type}

/-- `value` of a literal and of a register (R74). -/
@[simp] theorem value_lit (v : Word) (s : Plugged.State W D) : value (.lit v) s = v := rfl
@[simp] theorem value_reg (r : Fin 8) (s : Plugged.State W D) : value (.reg r) s = s.regs[r] := rfl

theorem addressExists_iff (a : Word) : addressExists a = true ↔ a.toNat < 32768 := by
  simp [addressExists]

/-- A successful write is to a register or to a memory word that exists (R75), with its record (R136). -/
theorem writeEv_cases {d : Operand} {v : Word} {s u : Plugged.State W D} {ev : Retirement}
    (h : writeEv d v s = some (u, ev)) :
    (∃ r, d = .reg r ∧ u = s.setReg r v ∧
      ev = { reg := decide (s.regs[r] ≠ v), mem := false, stk := false }) ∨
    (∃ a, d = .lit a ∧ a.toNat < 32768 ∧ u = s.setMem a.toNat v ∧
      ev = { reg := false, mem := decide (Memory.read s.mem a.toNat ≠ v), stk := false }) := by
  cases d with
  | reg r =>
    obtain ⟨rfl, rfl⟩ := Prod.mk.inj (Option.some.inj h)
    exact .inl ⟨r, rfl, rfl, rfl⟩
  | lit a =>
    simp only [writeEv] at h
    split at h
    · rename_i ha
      obtain ⟨rfl, rfl⟩ := Prod.mk.inj (Option.some.inj h)
      exact .inr ⟨a, rfl, (addressExists_iff a).1 ha, rfl, rfl⟩
    · cases h

/-- A write to a well-formed destination succeeds, and its record says what changed. -/
theorem writeEv_of_wf {d : Operand} (hd : d.wf = true) (v : Word) (s : Plugged.State W D) :
    ∃ u, writeEv d v s = some (u,
      { reg := isRegDest d && decide (held d s ≠ v)
        mem := !isRegDest d && decide (held d s ≠ v), stk := false }) := by
  cases d with
  | reg r => exact ⟨s.setReg r v, rfl⟩
  | lit a =>
    have ha : addressExists a = true := by simpa [Operand.wf, addressExists] using hd
    exact ⟨s.setMem a.toNat v, by
      simp only [writeEv, ha, if_true]; rfl⟩

/-- The destination received the Word, and nothing else changed. -/
theorem writeEv_received {d : Operand} {v : Word} {s u : Plugged.State W D} {ev : Retirement}
    (hm : Memory.wf s.mem) (h : writeEv d v s = some (u, ev)) : Received d v s u := by
  rcases writeEv_cases h with ⟨r, rfl, rfl, _⟩ | ⟨a, rfl, _, rfl, _⟩
  · refine ⟨by simp, fun q hq => ?_, fun _ => rfl⟩
    have : r.val ≠ q.val := fun h => hq (Fin.ext h.symm)
    simp [Vector.getElem_set_ne, this]
  · exact ⟨Memory.read_write_self hm _ _, fun b hb => Memory.read_write_ne v hb, rfl⟩

/-- Two states that agree on registers, memory, and all that a retirement reads. -/
structure Agree (s t : Plugged.State W D) : Prop where
  regs   : t.regs = s.regs
  mem    : t.mem = s.mem
  wd     : t.wd = s.wd
  engine : t.engine = s.engine
  reason : t.reason = s.reason
  params : t.params = s.params

theorem Agree.refl (s : Plugged.State W D) : Agree s s := ⟨rfl, rfl, rfl, rfl, rfl, rfl⟩
theorem agree_dropTop (s : Plugged.State W D) : Agree s s.dropTop := ⟨rfl, rfl, rfl, rfl, rfl, rfl⟩
theorem agree_dropInput (s : Plugged.State W D) : Agree s s.dropInput := ⟨rfl, rfl, rfl, rfl, rfl, rfl⟩

theorem held_agree {s t : Plugged.State W D} (h : Agree s t) (d : Operand) : held d t = held d s := by
  cases d <;> simp [held, h.regs, h.mem]

theorem received_agree {s t u : Plugged.State W D} (h : Agree s t) {d : Operand} {v : Word}
    (hr : Received d v t u) : Received d v s u := by
  cases d <;> simpa [Received, MemSame, MemSameBut, h.regs, h.mem] using hr

/-- What a write leaves alone. -/
theorem writeEv_frame {d : Operand} {v : Word} {s u : Plugged.State W D} {ev : Retirement}
    (h : writeEv d v s = some (u, ev)) :
    u.pc = s.pc ∧ u.stack = s.stack ∧ u.outStream = s.outStream ∧ u.inStream = s.inStream ∧
    u.diagStream = s.diagStream ∧ u.wd = s.wd ∧ u.engine = s.engine ∧ u.reason = s.reason ∧
    u.params = s.params := by
  rcases writeEv_cases h with ⟨r, rfl, rfl, _⟩ | ⟨a, rfl, _, rfl, _⟩ <;> simp

/-- The shared end of the writing instructions: for a well-formed destination it answers a next state in
which the destination received the Word and the instruction retired with the adjusted record. `s` is the
state of the instruction, `t` the one it writes in. -/
theorem writeRetire_spec {d : Operand} (hd : d.wf = true) (v next : Word)
    (adjust : Retirement → Retirement) {s t : State} (hm : Memory.wf t.mem) (hst : Agree s t) :
    ∃ u, finish s (writeRetire d v next adjust t) = .next u ∧ Received d v s u ∧
      (let ev := adjust { reg := isRegDest d && decide (held d s ≠ v)
                          mem := !isRegDest d && decide (held d s ≠ v), stk := false }
       Retired next ev.reg ev.mem ev.stk s u) ∧
      u.stack = t.stack ∧ u.outStream = t.outStream ∧ u.inStream = t.inStream ∧
      u.diagStream = t.diagStream := by
  obtain ⟨u, hu⟩ := writeEv_of_wf hd v t
  obtain ⟨_, hstk, hout, hin, hdiag, hwd, heng, hrea, hpar⟩ := writeEv_frame hu
  rw [held_agree hst] at hu
  refine ⟨_, by simp only [writeRetire, hu]; rfl, ?_, ?_,
    by simp [hstk], by simp [hout], by simp [hin], by simp [hdiag]⟩
  · have := received_agree hst (writeEv_received hm hu)
    cases d <;> simpa [Received, MemSame, MemSameBut] using this
  · exact retire_retired _ _ _ _ (by rw [hwd, hst.wd])
      (by rw [heng, hst.engine]) (by rw [hrea, hst.reason]) (by rw [hpar, hst.params])

/-- The end of `set` and of the ALU instructions, as claims state it. -/
theorem storeResult_spec {d : Operand} (hd : d.wf = true) (v words : Word) {s : State}
    (hm : Memory.wf s.mem) :
    ∃ t, finish s (storeResult d v words s) = .next t ∧ WritesResult d v words s t := by
  obtain ⟨t, ht, hrec, hret, hstk, hout, hin, hdiag⟩ :=
    writeRetire_spec hd v (s.pc + words) id hm (Agree.refl s)
  exact ⟨t, ht, ⟨hrec, hret⟩, hstk, hout, hin, hdiag⟩

/-- A retirement with nothing but a new pc, as claims state it. -/
theorem finish_quiet (next : Word) (s : State) :
    ∃ t, finish s (.retire next evNone s) = .next t ∧ Retired next false false false s t ∧
      DataSame s t ∧ StackAndStreamsSame s t :=
  ⟨_, rfl, retire_retired next evNone s s rfl rfl rfl rfl, ⟨by simp, fun a => by simp⟩, by simp,
    by simp [StreamsSame]⟩

end Sys2Proof.Machine
end

