-- ==== Sys2Proof/Laws/PerInstr.lean ====
section
/-! SUPPORT. Statements made per instruction, about an instruction as syntax. The family EncodeShape: an
encoding is the opcode id, below 22, and then the operand words, 1 + arity words in all, at most four
(spec/30_encoding.md R50, R55). -/

namespace Sys2Proof.Laws.EncodeShape

/-- The shape of an instruction's encoding (R50, R55). -/
def Statement (i : Instr) : Prop :=
  (opcodeOf i).toNat < 22 ∧ encode i = opcodeOf i :: i.operands.map encodeOperand ∧
  (encode i).length = 1 + i.arity ∧ (encode i).length ≤ 4

/-- The shape follows from the opcode's range and the arity, which each constructor shows. -/
theorem of_bounds (i : Instr) (h : (opcodeOf i).toNat < 22) (ha : i.operands.length ≤ 3) : Statement i := by
  refine ⟨h, rfl, ?_, ?_⟩ <;> simp only [encode, Instr.arity, List.length_cons, List.length_map] <;> omega

theorem halt : Statement .halt := of_bounds _ (by simp [opcodeOf]) (by simp [Instr.operands])
theorem set (a b : Operand) : Statement (.set a b) := of_bounds _ (by simp [opcodeOf]) (by simp [Instr.operands])
theorem push (a : Operand) : Statement (.push a) := of_bounds _ (by simp [opcodeOf]) (by simp [Instr.operands])
theorem pop (a : Operand) : Statement (.pop a) := of_bounds _ (by simp [opcodeOf]) (by simp [Instr.operands])
theorem eq (a b c : Operand) : Statement (.eq a b c) := of_bounds _ (by simp [opcodeOf]) (by simp [Instr.operands])
theorem gt (a b c : Operand) : Statement (.gt a b c) := of_bounds _ (by simp [opcodeOf]) (by simp [Instr.operands])
theorem jmp (a : Operand) : Statement (.jmp a) := of_bounds _ (by simp [opcodeOf]) (by simp [Instr.operands])
theorem jt (a b : Operand) : Statement (.jt a b) := of_bounds _ (by simp [opcodeOf]) (by simp [Instr.operands])
theorem jf (a b : Operand) : Statement (.jf a b) := of_bounds _ (by simp [opcodeOf]) (by simp [Instr.operands])
theorem add (a b c : Operand) : Statement (.add a b c) := of_bounds _ (by simp [opcodeOf]) (by simp [Instr.operands])
theorem mult (a b c : Operand) : Statement (.mult a b c) := of_bounds _ (by simp [opcodeOf]) (by simp [Instr.operands])
theorem mod (a b c : Operand) : Statement (.mod a b c) := of_bounds _ (by simp [opcodeOf]) (by simp [Instr.operands])
theorem and (a b c : Operand) : Statement (.and a b c) := of_bounds _ (by simp [opcodeOf]) (by simp [Instr.operands])
theorem or (a b c : Operand) : Statement (.or a b c) := of_bounds _ (by simp [opcodeOf]) (by simp [Instr.operands])
theorem not (a b : Operand) : Statement (.not a b) := of_bounds _ (by simp [opcodeOf]) (by simp [Instr.operands])
theorem rmem (a b : Operand) : Statement (.rmem a b) := of_bounds _ (by simp [opcodeOf]) (by simp [Instr.operands])
theorem wmem (a b : Operand) : Statement (.wmem a b) := of_bounds _ (by simp [opcodeOf]) (by simp [Instr.operands])
theorem call (a : Operand) : Statement (.call a) := of_bounds _ (by simp [opcodeOf]) (by simp [Instr.operands])
theorem ret : Statement .ret := of_bounds _ (by simp [opcodeOf]) (by simp [Instr.operands])
theorem out (a : Operand) : Statement (.out a) := of_bounds _ (by simp [opcodeOf]) (by simp [Instr.operands])
theorem input (a : Operand) : Statement (.input a) := of_bounds _ (by simp [opcodeOf]) (by simp [Instr.operands])
theorem noop : Statement .noop := of_bounds _ (by simp [opcodeOf]) (by simp [Instr.operands])

end Sys2Proof.Laws.EncodeShape
end

