-- ==== Sys2Proof/Laws/Step.lean ====
section
/-! SUPPORT. What an instruction and a step can do, said once, whatever watchdog strategy is plugged in: it
halts, raises a fault, retires one effect, or holds. Claims over all instructions are derived from these. -/

namespace Sys2Proof.Machine

variable {W D : Type}

/-- The effects that what was decoded, `d`, can retire with: the state it retires from and the record
(R136). -/
inductive Effect (d : Decoded) (s : Plugged.State W D) : Plugged.State W D → Retirement → Prop
  | none : Effect d s s evNone
  | emit (a : Operand) (hd : d = .instr (.out a)) : Effect d s (s.emitOut (value a s)) evNone
  | diag (e : DiagEvent) : Effect d s (s.emitDiag e) evNone
  | push (w : Word) (h : s.stackFull = false) : Effect d s (s.pushWord w) evStk
  | drop (h : s.stack ≠ []) : Effect d s s.dropTop evStk
  | write {o : Operand} {v : Word} {u : Plugged.State W D} {ev : Retirement}
      (h : writeEv o v s = some (u, ev)) : Effect d s u ev
  | pop {o : Operand} {v : Word} {u : Plugged.State W D} {ev : Retirement} (ht : s.stack ≠ [])
      (h : writeEv o v s.dropTop = some (u, ev)) : Effect d s u { ev with stk := true }
  | input {o : Operand} {w : Word} {ws : List Word} {u : Plugged.State W D} {ev : Retirement}
      (hd : d = .instr (.input o)) (hin : s.inStream = w :: ws)
      (h : writeEv o w s.dropInput = some (u, ev)) : Effect d s u (evIn o)

/-- No effect touches the pc, the engine state, the reason, the watchdog or the parameters. -/
theorem Effect.frame {d : Decoded} {s u : Plugged.State W D} {ev : Retirement} (h : Effect d s u ev) :
    u.pc = s.pc ∧ u.wd = s.wd ∧ u.engine = s.engine ∧ u.reason = s.reason ∧ u.params = s.params := by
  cases h with
  | write h =>
    obtain ⟨h1, _, _, _, _, h2, h3, h4, h5⟩ := writeEv_frame h
    exact ⟨h1, h2, h3, h4, h5⟩
  | pop _ h =>
    obtain ⟨h1, _, _, _, _, h2, h3, h4, h5⟩ := writeEv_frame h
    exact ⟨h1, h2, h3, h4, h5⟩
  | input _ _ h =>
    obtain ⟨h1, _, _, _, _, h2, h3, h4, h5⟩ := writeEv_frame h
    exact ⟨h1, h2, h3, h4, h5⟩
  | _ => exact ⟨rfl, rfl, rfl, rfl, rfl⟩

/-- A write keeps memory canonical. -/
theorem writeEv_memWf {d : Operand} {v : Word} {s u : Plugged.State W D} {ev : Retirement}
    (h : writeEv d v s = some (u, ev)) (hm : Memory.wf s.mem) : Memory.wf u.mem := by
  rcases writeEv_cases h with ⟨r, _, rfl, _⟩ | ⟨a, _, ha, rfl, _⟩
  · exact hm
  · exact Memory.write_wf hm v ha

/-- Every effect keeps memory canonical. -/
theorem Effect.memWf {d : Decoded} {s u : Plugged.State W D} {ev : Retirement} (h : Effect d s u ev) (hm : Memory.wf s.mem) :
    Memory.wf u.mem := by
  cases h with
  | write h => exact writeEv_memWf h hm
  | pop _ h => exact writeEv_memWf h hm
  | input _ _ h => exact writeEv_memWf h hm
  | _ => exact hm

/-- No effect takes the stack of a finite-depth instance beyond its depth (R21). -/
theorem Effect.depth {d : Decoded} {s u : Plugged.State W D} {ev : Retirement} (h : Effect d s u ev)
    (hd : ∀ n, s.params.stackDepth = some n → s.stack.length ≤ n) :
    ∀ n, u.params.stackDepth = some n → u.stack.length ≤ n := by
  intro n hu
  rw [h.frame.2.2.2.2] at hu
  have hs := hd n hu
  cases h with
  | push w hf =>
    have : n ≠ s.stack.length := by
      intro he; simp [Plugged.State.stackFull, hu, he] at hf
    simp; omega
  | drop => simp; omega
  | write h => rw [(writeEv_frame h).2.1]; exact hs
  | pop _ h => rw [(writeEv_frame h).2.1]; simp; omega
  | input _ _ h => rw [(writeEv_frame h).2.1]; exact hs
  | _ => exact hs

/-- The ways what was decoded ends (R70, R80, R128). It halts only where it is `halt`, or `ret` on an empty
stack; it holds only where it is `in` and there is no input; it retires with the default advance unless
it sets the pc. -/
inductive Ends (d : Decoded) (s : Plugged.State W D) : Ending W D → Prop
  | halt (h : d = .instr .halt ∨ (d = .instr .ret ∧ s.stack = [])) : Ends d s .halt
  | fault (r : FaultRecord D) (h : r.pc? = some s.pc) : Ends d s (.fault r)
  | retire {u : Plugged.State W D} {ev : Retirement} (next : Word) (h : Effect d s u ev)
      (hn : ∀ i, d = .instr i → setsPc i = false → next = s.pc + BitVec.ofNat 16 (1 + i.arity)) :
      Ends d s (.retire next ev u)
  | hold (a : Operand) (hd : d = .instr (.input a)) (hin : s.inStream = []) : Ends d s .hold

/-- An instruction that sets the pc retires with any next pc. -/
theorem Ends.jump {i : Instr} {s u : Plugged.State W D} {ev : Retirement} (next : Word)
    (h : Effect (.instr i) s u ev) (hi : setsPc i = true) : Ends (.instr i) s (.retire next ev u) :=
  .retire next h fun j hj hs => by cases hj; rw [hi] at hs; cases hs

/-- An instruction that does not set the pc retires with the default advance. -/
theorem Ends.advance {i : Instr} {s u : Plugged.State W D} {ev : Retirement}
    (h : Effect (.instr i) s u ev) :
    Ends (.instr i) s (.retire (s.pc + BitVec.ofNat 16 (1 + i.arity)) ev u) :=
  .retire _ h fun j hj _ => by cases hj; rfl

/-- `writeRetire` retires its write, or raises the fault of an invalid destination. -/
theorem writeRetire_cases (d : Operand) (v next : Word) (adjust : Retirement → Retirement)
    (s : Plugged.State W D) :
    writeRetire d v next adjust s = .fault (.invalidOperand s.pc 1 (encodeOperand d)) ∨
    ∃ u ev, writeEv d v s = some (u, ev) ∧ writeRetire d v next adjust s = .retire next (adjust ev) u := by
  unfold writeRetire
  split
  · exact .inl rfl
  · rename_i u ev h; exact .inr ⟨u, ev, h, rfl⟩

theorem storeResult_ends {i : Instr} (d : Operand) (v : Word) (s : Plugged.State W D) :
    Ends (.instr i) s (storeResult d v (BitVec.ofNat 16 (1 + i.arity)) s) := by
  rcases writeRetire_cases d v (s.pc + BitVec.ofNat 16 (1 + i.arity)) id s with
    h | ⟨u, ev, hw, h⟩ <;> rw [storeResult, h]
  · exact .fault _ rfl
  · exact .advance (.write hw)

/-- Every instruction ends in one of these ways. -/
theorem ending_ends (i : Instr) (s : Plugged.State W D) : Ends (.instr i) s (ending i s) := by
  cases i with
  | input a =>
    simp only [ending, inputEnding]
    split
    · rename_i hin; exact .hold a rfl hin
    · rename_i w ws hin
      rcases writeRetire_cases a w (s.pc + 2) (fun _ => evIn a) s.dropInput with h | ⟨u, ev, hw, h⟩ <;>
        rw [h]
      · exact .fault _ rfl
      · exact .advance (.input rfl hin hw)
  | halt => exact .halt (.inl rfl)
  | jmp a => exact .jump _ .none rfl
  | jt a b => exact .jump _ .none rfl
  | jf a b => exact .jump _ .none rfl
  | noop => exact .advance .none
  | out a => exact .advance (.emit a rfl)
  | push a =>
    simp only [ending, pushEnding]
    split
    · exact .fault _ rfl
    · rename_i hf; exact .advance (.push _ (by simpa using hf))
  | call a =>
    simp only [ending, callEnding]
    split
    · exact .fault _ rfl
    · rename_i hf; exact .jump _ (.push _ (by simpa using hf)) rfl
  | ret =>
    simp only [ending, retEnding]
    split
    · rename_i hw; exact .halt (.inr ⟨rfl, by simpa [Plugged.State.top?] using hw⟩)
    · rename_i w hw
      exact .jump _ (.drop (by intro h; simp [Plugged.State.top?, h] at hw)) rfl
  | pop a =>
    simp only [ending, popEnding]
    split
    · exact .fault _ rfl
    · rename_i w hw
      rcases writeRetire_cases a w (s.pc + 2) (fun ev => { ev with stk := true }) s.dropTop with
        h | ⟨u, ev, hu, h⟩ <;> rw [h]
      · exact .fault _ rfl
      · exact .advance (.pop (by intro h; simp [Plugged.State.top?, h] at hw) hu)
  | mod a b c =>
    simp only [ending, modEnding]
    split
    · exact .fault _ rfl
    · exact storeResult_ends ..
  | rmem a b =>
    simp only [ending, rmemEnding]
    split
    · exact storeResult_ends ..
    · exact .fault _ rfl
  | wmem a b =>
    simp only [ending, wmemEnding]
    split
    · exact storeResult_ends ..
    · exact .fault _ rfl
  | _ => exact storeResult_ends ..

/-- Every step of a running engine ends in one of these ways. -/
theorem stepEnding_ends (s : Plugged.State W D) : Ends (fetch s) s (stepEnding s) := by
  unfold stepEnding
  cases h : fetch s with
  | instr i => exact ending_ends i s
  | undefined w =>
    simp only [undefinedOpcode]
    split
    · exact .fault _ rfl
    · exact .retire _ (.diag _) fun i hi => by cases hi
  | ranOut k => exact .fault _ rfl
  | invalidOperand k w => exact .fault _ rfl

/-- The inversion of an answer: a next state is a halt, a raised fault or a retirement. -/
theorem Ends.cases_next {wd : WatchdogStrategy W D} {d : Decoded} {s t : Plugged.State W D}
    {e : Ending W D} (h : Ends d s e) (ht : conclude wd s e = .next t) :
    (t = s.haltEngine ∧ (d = .instr .halt ∨ (d = .instr .ret ∧ s.stack = []))) ∨
    (∃ r, r.pc? = some s.pc ∧ t = s.raise r) ∨
    ∃ u ev next, Effect d s u ev ∧ t = Machine.retire wd next ev u ∧
      ∀ i, d = .instr i → setsPc i = false → next = s.pc + BitVec.ofNat 16 (1 + i.arity) := by
  cases h with
  | halt hd => cases ht; exact .inl ⟨rfl, hd⟩
  | fault r hr => cases ht; exact .inr (.inl ⟨r, hr, rfl⟩)
  | retire next hE hn => cases ht; exact .inr (.inr ⟨_, _, next, hE, rfl, hn⟩)
  | hold => cases ht

/-- `exec` is the instruction's ending, concluded with the default strategy. -/
theorem exec_eq (i : Instr) (s : State) : exec i s = finish s (ending i s) := by cases i <;> rfl

/-- A running engine's step is the ending of what was fetched, concluded with the default strategy. -/
theorem step_running {s : State} (h : s.engine = .running) : step s = finish s (stepEnding s) := by
  simp only [step, noStep, h, stepEnding]
  cases fetch s <;> simp only [exec_eq]

/-- The same with any strategy plugged in. -/
theorem stepWith_running (wd : WatchdogStrategy W D) {s : Plugged.State W D} (h : s.engine = .running) :
    stepWith wd s = conclude wd s (stepEnding s) := by simp only [stepWith, noStep, h]

/-- Only a running engine has a next state. -/
theorem step_next {s t : State} (h : step s = .next t) :
    s.engine = .running ∧ finish s (stepEnding s) = .next t := by
  have he : s.engine = .running := by
    unfold step noStep at h
    cases he : s.engine <;> simp [he] at h ⊢
  exact ⟨he, step_running he ▸ h⟩

/-- The same with any strategy plugged in. -/
theorem stepWith_next {wd : WatchdogStrategy W D} {s t : Plugged.State W D}
    (h : stepWith wd s = .next t) : s.engine = .running ∧ conclude wd s (stepEnding s) = .next t := by
  have he : s.engine = .running := by
    unfold stepWith noStep at h
    cases he : s.engine <;> simp [he] at h ⊢
  exact ⟨he, stepWith_running wd he ▸ h⟩

end Sys2Proof.Machine
end

