-- ==== Sys2Proof/Machine/Run.lean ====
section
/-! DEFINITION. The run (spec/40_step_and_operands.md R83): `step` applied repeatedly while the engine is
Running, with the host supplying input between the steps (spec/10_state.md R25), and the termination
reason that `run()` returns (R18). A run need not return, so the definition that computes takes the turns
to consider, and what `run()` returns is stated over all of them (notes/assumptions/15.md). -/

namespace Sys2Proof.Machine

variable {W D : Type}

/-- What is known of `run()` after some turns. -/
inductive RunAnswer (W D : Type)
  /-- `run()` has returned this reason; the final state, which a host may read, is beside it (R195). -/
  | returned (reason : TerminationReason D) (final : Plugged.State W D)
  /-- `run()` has not returned, the engine is in this state (R83: there is no partial result). -/
  | notReturned (now : Plugged.State W D)
deriving DecidableEq, Repr

/-- One turn of a run: the host appends the Words `supply`, none for an empty list (R25), and the engine
takes its step. Where it has none, at an `in` that holds (R128), it stays where it is. -/
def turn (wd : WatchdogStrategy W D) (supply : List Word) (s : Plugged.State W D) : Plugged.State W D :=
  match stepWith wd (s.hostSupply supply) with
  | .next t => t
  | .fault _ => s.hostSupply supply
  | .refused _ => s.hostSupply supply

/-- `run()` with the strategy `wd`, as far as these turns take it; each gives the Words that the host
supplies before the step. It returns as soon as the engine has a termination reason (R18, R83). -/
def runWith (wd : WatchdogStrategy W D) (turns : List (List Word)) (s : Plugged.State W D) :
    RunAnswer W D :=
  match terminationReason s with
  | some reason => .returned reason s
  | none =>
    match turns with
    | [] => .notReturned s
    | supply :: rest => runWith wd rest (turn wd supply s)

/-- `run()` with the default strategy of the instance. -/
def run (turns : List (List Word)) (s : State) : RunAnswer WdRegisters Signature :=
  runWith (defaultWatchdog s.params.wdLimit) turns s

/-- `run()` returns `reason`, in the state `final`, when the host supplies the Words `host n` before step
number `n` (R83). A run of which this holds for no reason and no state never returns. -/
def RunReturns (wd : WatchdogStrategy W D) (host : Nat → List Word) (s : Plugged.State W D)
    (reason : TerminationReason D) (final : Plugged.State W D) : Prop :=
  ∃ n, runWith wd ((List.range n).map host) s = .returned reason final

end Sys2Proof.Machine
end

