-- ==== Sys2Proof/Laws/Run.lean ====
section
/-! SUPPORT. What a run (R83) can do: it returns in a terminal state with that state's reason or has not
returned, further turns continue it and never change what it returned, and it is the host's iteration of
the step. -/

namespace Sys2Proof.Machine

variable {W D : Type} (wd : WatchdogStrategy W D)

/-- A Running engine has no termination reason (R18). -/
theorem terminationReason_running {s : Plugged.State W D} (h : s.engine = .running) :
    terminationReason s = none := by simp only [terminationReason, h]

/-- A run that has its reason returns it, whatever turns are left. -/
theorem runWith_ended {s : Plugged.State W D} {r : TerminationReason D} (turns : List (List Word))
    (h : terminationReason s = some r) : runWith wd turns s = .returned r s := by
  unfold runWith; rw [h]

@[simp] theorem runWith_nil {s : Plugged.State W D} (h : terminationReason s = none) :
    runWith wd [] s = .notReturned s := by
  unfold runWith; rw [h]

@[simp] theorem runWith_cons {s : Plugged.State W D} (h : terminationReason s = none)
    (supply : List Word) (rest : List (List Word)) :
    runWith wd (supply :: rest) s = runWith wd rest (turn wd supply s) := by
  rw [runWith, h]

/-- A run returns the reason of its final state, and has not returned while there is none (R18). -/
theorem runWith_cases (turns : List (List Word)) (s : Plugged.State W D) :
    (∃ r t, terminationReason t = some r ∧ runWith wd turns s = .returned r t) ∨
    ∃ t, terminationReason t = none ∧ runWith wd turns s = .notReturned t := by
  induction turns generalizing s with
  | nil =>
    cases h : terminationReason s with
    | some r => exact .inl ⟨r, s, h, runWith_ended wd _ h⟩
    | none => exact .inr ⟨s, h, runWith_nil wd h⟩
  | cons supply rest ih =>
    cases h : terminationReason s with
    | some r => exact .inl ⟨r, s, h, runWith_ended wd _ h⟩
    | none => rw [runWith_cons wd h]; exact ih _

/-- Further turns continue a run that has not returned, and change nothing of one that has. -/
theorem runWith_append (turns more : List (List Word)) (s : Plugged.State W D) :
    runWith wd (turns ++ more) s =
      match runWith wd turns s with
      | .returned r t => .returned r t
      | .notReturned t => runWith wd more t := by
  induction turns generalizing s with
  | nil =>
    cases h : terminationReason s with
    | some r => simp only [List.nil_append, runWith_ended wd _ h]
    | none => simp only [List.nil_append, runWith_nil wd h]
  | cons supply rest ih =>
    cases h : terminationReason s with
    | some r => simp only [List.cons_append, runWith_ended wd _ h]
    | none => simp only [List.cons_append, runWith_cons wd h, ih]

/-- What `run()` returns is unique: the engine is deterministic given the input (R82). -/
theorem RunReturns.unique {host : Nat → List Word} {s t u : Plugged.State W D}
    {r q : TerminationReason D} (h : RunReturns wd host s r t) (k : RunReturns wd host s q u) :
    q = r ∧ u = t := by
  have key : ∀ (a b : Nat) (x y : RunAnswer W D), a ≤ b →
      runWith wd ((List.range a).map host) s = x → runWith wd ((List.range b).map host) s = y →
      (∃ p v, x = .returned p v) → y = x := by
    rintro a b x y hab hx hy ⟨p, v, rfl⟩
    obtain ⟨c, rfl⟩ := Nat.exists_eq_add_of_le hab
    rw [List.range_add, List.map_append, runWith_append, hx] at hy
    exact hy.symm
  obtain ⟨a, ha⟩ := h
  obtain ⟨b, hb⟩ := k
  rcases Nat.le_total a b with hab | hab
  · have := key a b _ _ hab ha hb ⟨r, t, rfl⟩; cases this; exact ⟨rfl, rfl⟩
  · have := key b a _ _ hab hb ha ⟨q, u, rfl⟩; cases this; exact ⟨rfl, rfl⟩

/-- A step is the turn in which the host supplies nothing. -/
theorem turn_step {s t : Plugged.State W D} (h : stepWith wd s = .next t) : turn wd [] s = t := by
  have hs : s.hostSupply [] = s := by simp [Plugged.State.hostSupply]
  simp only [turn, hs, h]

/-- A held `in` stays where it is until the host supplies a Word (R128). -/
theorem turn_hold {s : Plugged.State W D} (h : stepWith wd s = .fault .inputHold) : turn wd [] s = s := by
  have hs : s.hostSupply [] = s := by simp [Plugged.State.hostSupply]
  simp only [turn, hs, h]

/-- The host's iteration of the step, where it arrives in a terminal state, is the run without input. -/
theorem runWith_of_steps {k : Nat} {s t : Plugged.State W D} {r : TerminationReason D}
    (h : (coreWith wd).run k s = .next t) (ht : terminationReason t = some r) :
    runWith wd (List.replicate k []) s = .returned r t := by
  induction k generalizing s with
  | zero => cases h; exact runWith_ended wd _ ht
  | succ k ih =>
    simp only [Host.Core.run] at h
    cases hs : stepWith wd s with
    | next s' =>
      rw [show (coreWith wd).step s = .next s' from hs] at h
      rw [List.replicate_succ, runWith_cons wd (terminationReason_running (stepWith_next hs).1),
        turn_step wd hs]
      exact ih h
    | fault f => rw [show (coreWith wd).step s = .fault f from hs] at h; cases h
    | refused f => rw [show (coreWith wd).step s = .refused f from hs] at h; cases h

end Sys2Proof.Machine
end

