-- ==== Sys2Proof/Laws/Simulation.lean ====
section
/-! SUPPORT. What an instruction does not depend on, said once: if a change `f` of the state leaves alone
all that instructions read and commutes with all that they write, then an instruction ends the same way
before and after `f`. `f` may go to a state with another watchdog strategy plugged in. Claims that the
strategy, its state or the output records do not matter to an opcode are instances. -/

namespace Sys2Proof.Machine

variable {W D V E : Type}

/-- `f` leaves alone what instructions read, and commutes with what they write. -/
structure Commutes (f : Plugged.State W D → Plugged.State V E) : Prop where
  regs      : ∀ s, (f s).regs = s.regs
  pc        : ∀ s, (f s).pc = s.pc
  stack     : ∀ s, (f s).stack = s.stack
  mem       : ∀ s, (f s).mem = s.mem
  inStream  : ∀ s, (f s).inStream = s.inStream
  depth     : ∀ s, (f s).params.stackDepth = s.params.stackDepth
  policy    : ∀ s, (f s).params.undefPolicy = s.params.undefPolicy
  setReg    : ∀ r v s, (f s).setReg r v = f (s.setReg r v)
  setMem    : ∀ a v s, (f s).setMem a v = f (s.setMem a v)
  pushWord  : ∀ v s, (f s).pushWord v = f (s.pushWord v)
  dropTop   : ∀ s, (f s).dropTop = f s.dropTop
  dropInput : ∀ s, (f s).dropInput = f s.dropInput
  emitOut   : ∀ v s, (f s).emitOut v = f (s.emitOut v)
  emitDiag  : ∀ e s, (f s).emitDiag e = f (s.emitDiag e)

/-- The same ending up to `f`: both halt, both raise the same record, both retire the same effect with
the same next pc, or both hold. -/
inductive SameEnding (f : Plugged.State W D → Plugged.State V E) : Ending W D → Ending V E → Prop
  | halt : SameEnding f .halt .halt
  | fault (r : FaultRecord D) (q : FaultRecord E) (hp : r.pc? ≠ none) (h : q.erase = r.erase) :
      SameEnding f (.fault r) (.fault q)
  | retire (next : Word) (ev : Retirement) (u : Plugged.State W D) :
      SameEnding f (.retire next ev u) (.retire next ev (f u))
  | hold : SameEnding f .hold .hold

/-- Only a watchdog's trip loses something when its diagnostic is erased. -/
theorem FaultRecord.erase_inj {r q : FaultRecord D} (hp : r.pc? ≠ none) (h : q.erase = r.erase) :
    q = r := by
  cases r <;> cases q <;> simp_all [FaultRecord.erase, FaultRecord.pc?]

section
variable {f : Plugged.State W D → Plugged.State V E} (hf : Commutes f)
include hf

theorem value_same (o : Operand) (s : Plugged.State W D) : value o (f s) = value o s := by
  cases o <;> simp [hf.regs]

theorem writeEv_same (o : Operand) (v : Word) (s : Plugged.State W D) :
    writeEv o v (f s) = (writeEv o v s).map fun p => (f p.1, p.2) := by
  cases o with
  | reg r => simp only [writeEv, hf.setReg, hf.regs, Option.map_some]
  | lit a => simp only [writeEv]; split <;> simp [hf.setMem, hf.mem]

theorem stackFull_same (s : Plugged.State W D) : (f s).stackFull = s.stackFull := by
  simp only [Plugged.State.stackFull, hf.depth, hf.stack]

theorem writeRetire_same (o : Operand) (v next : Word) (adjust : Retirement → Retirement)
    (s : Plugged.State W D) :
    SameEnding f (writeRetire o v next adjust s) (writeRetire o v next adjust (f s)) := by
  unfold writeRetire
  rw [writeEv_same hf]
  cases writeEv o v s with
  | none => simp only [Option.map_none, hf.pc]; exact .fault _ _ nofun rfl
  | some p => exact .retire _ _ _

theorem storeResult_same (o : Operand) (v words : Word) (s : Plugged.State W D) :
    SameEnding f (storeResult o v words s) (storeResult o v words (f s)) := by
  simp only [storeResult, hf.pc]; exact writeRetire_same hf _ _ _ _ _

/-- An instruction ends the same way before and after `f`. -/
theorem ending_same (i : Instr) (s : Plugged.State W D) : SameEnding f (ending i s) (ending i (f s)) := by
  cases i with
  | halt => exact .halt
  | jmp a => simp only [ending, jmpEnding, value_same hf]; exact .retire _ _ _
  | jt a b => simp only [ending, jtEnding, value_same hf, hf.pc]; exact .retire _ _ _
  | jf a b => simp only [ending, jfEnding, value_same hf, hf.pc]; exact .retire _ _ _
  | noop => simp only [ending, noopEnding, hf.pc]; exact .retire _ _ _
  | out a => simp only [ending, outEnding, value_same hf, hf.emitOut, hf.pc]; exact .retire _ _ _
  | call a =>
    simp only [ending, callEnding, value_same hf, hf.pc, stackFull_same hf, hf.pushWord]
    split
    · exact .fault _ _ nofun rfl
    · exact .retire _ _ _
  | push a =>
    simp only [ending, pushEnding, value_same hf, hf.pc, stackFull_same hf, hf.pushWord]
    split
    · exact .fault _ _ nofun rfl
    · exact .retire _ _ _
  | ret =>
    simp only [ending, retEnding, Plugged.State.top?, hf.stack, hf.dropTop]
    split
    · exact .halt
    · exact .retire _ _ _
  | pop a =>
    simp only [ending, popEnding, Plugged.State.top?, hf.stack, hf.dropTop, hf.pc]
    split
    · exact .fault _ _ nofun rfl
    · exact writeRetire_same hf _ _ _ _ _
  | input a =>
    simp only [ending, inputEnding, hf.inStream, hf.dropInput, hf.pc]
    split
    · exact .hold
    · exact writeRetire_same hf _ _ _ _ _
  | mod a b c =>
    simp only [ending, modEnding, value_same hf, hf.pc]
    split
    · exact .fault _ _ nofun rfl
    · exact storeResult_same hf _ _ _ _
  | rmem a b =>
    simp only [ending, rmemEnding, value_same hf, hf.pc, hf.mem]
    split
    · exact storeResult_same hf _ _ _ _
    · exact .fault _ _ nofun rfl
  | wmem a b =>
    simp only [ending, wmemEnding, value_same hf, hf.pc]
    split
    · exact storeResult_same hf _ _ _ _
    · exact .fault _ _ nofun rfl
  | set a b => simp only [ending, setEnding, value_same hf]; exact storeResult_same hf _ _ _ _
  | eq a b c => simp only [ending, eqEnding, value_same hf]; exact storeResult_same hf _ _ _ _
  | gt a b c => simp only [ending, gtEnding, value_same hf]; exact storeResult_same hf _ _ _ _
  | add a b c => simp only [ending, addEnding, value_same hf]; exact storeResult_same hf _ _ _ _
  | mult a b c => simp only [ending, multEnding, value_same hf]; exact storeResult_same hf _ _ _ _
  | and a b c => simp only [ending, andEnding, value_same hf]; exact storeResult_same hf _ _ _ _
  | or a b c => simp only [ending, orEnding, value_same hf]; exact storeResult_same hf _ _ _ _
  | not a b => simp only [ending, notEnding, value_same hf]; exact storeResult_same hf _ _ _ _

theorem fetch_same (s : Plugged.State W D) : fetch (f s) = fetch s := by simp only [fetch, hf.mem, hf.pc]

/-- A step of a running engine ends the same way before and after `f`. -/
theorem stepEnding_same (s : Plugged.State W D) : SameEnding f (stepEnding s) (stepEnding (f s)) := by
  simp only [stepEnding, fetch_same hf]
  split
  · exact ending_same hf _ s
  · simp only [undefinedOpcode, hf.policy, hf.pc, hf.emitDiag]
    split
    · exact .fault _ _ nofun rfl
    · exact .retire _ _ _
  · simp only [fetchOutOfRange, wordAddress, hf.pc]; exact .fault _ _ nofun rfl
  · simp only [fetchInvalidOperand, hf.pc]; exact .fault _ _ nofun rfl

end

/-- A retirement trips the watchdog or leaves the engine state and the reason. -/
theorem retire_trip (wd : WatchdogStrategy W D) (next : Word) (ev : Retirement) (u : Plugged.State W D) :
    (retire wd next ev u).tripped ∨
      ((retire wd next ev u).engine = u.engine ∧ (retire wd next ev u).reason = u.reason) :=
  retire_elim wd next ev u (P := fun t => t.tripped ∨ (t.engine = u.engine ∧ t.reason = u.reason))
    (.inr ⟨rfl, rfl⟩) (fun _ => .inr ⟨rfl, rfl⟩) (fun _ d => .inl ⟨d, rfl⟩)

/-- The machine `s` with another watchdog: the state `w` of another strategy, a reason with that strategy's
diagnostic, and the two parameters of the watchdog. -/
def replug (w : V) (reason : Option (FaultRecord E)) (enable : Bool) (limit : Nat)
    (s : Plugged.State W D) : Plugged.State V E :=
  { regs := s.regs, pc := s.pc, stack := s.stack, mem := s.mem, engine := s.engine, reason := reason
    outStream := s.outStream, inStream := s.inStream, diagStream := s.diagStream, wd := w
    params := { s.params with wdEnable := enable, wdLimit := limit } }

/-- Another watchdog is such a change. -/
theorem commutes_replug (w : V) (reason : Option (FaultRecord E)) (enable : Bool) (limit : Nat) :
    Commutes (replug w reason enable limit : Plugged.State W D → Plugged.State V E) := by
  constructor <;> intros <;> rfl

/-- Machines that differ in nothing but the watchdog are such a change of each other. -/
theorem SameButWatchdog.eq_replug {s : Plugged.State W D} {t : Plugged.State V E}
    (h : SameButWatchdog s t) : t = replug t.wd t.reason t.params.wdEnable t.params.wdLimit s := by
  obtain ⟨hv, he, _, hd, hp⟩ := h
  rcases s with ⟨_, _, _, _, _, _, _, _, _, _, ⟨_, _, _, _⟩⟩
  rcases t with ⟨_, _, _, _, _, _, _, _, _, _, ⟨_, _, _, _⟩⟩
  simp_all [Plugged.State.visible, replug]

/-- Words already on the output records are such a change. -/
theorem commutes_withHistory (out : List Word) (diag : List DiagEvent) :
    Commutes (Plugged.State.withHistory out diag : Plugged.State W D → Plugged.State W D) := by
  constructor <;> intros <;>
    simp [Plugged.State.withHistory, Plugged.State.setReg, Plugged.State.setMem, Plugged.State.pushWord,
      Plugged.State.dropTop, Plugged.State.dropInput, Plugged.State.emitOut, Plugged.State.emitDiag]

end Sys2Proof.Machine
end

