-- ==== Sys2Proof/Tests/Slice0.lean ====
section
/-! SUPPORT. The model's own tests: ill-formed terms, words written out from the spec's encodings, the
vectors of spec/95_test_vectors.md (each is one step on a small state), and for every statement with
hypotheses a state and operands that meet them. Expected results are the spec's. -/

namespace Sys2Proof.Tests

open Sys2Proof.Machine

/-- The launch state with the words `ws` at address 0. -/
def words (ws : List Word) : State := { State.reset with mem := placeWords 0 ws [] }

/-- The state with the words `ws` at address `a` and the pc there. -/
def wordsAtPc (a : Word) (ws : List Word) : State :=
  { State.reset with pc := a, mem := placeWords a.toNat ws [] }

/-- The next state, if there is one. -/
def after (s : State) : Option State :=
  match step s with
  | .next t => some t
  | _ => none

/-- The fault record and the pc after a step. -/
def faultAfter (s : State) : Option (Option (FaultRecord Signature) × Word) := (after s).map fun t => (t.reason, t.pc)

/-- A strategy that is not the default one (R145): it counts how often in a row the pc has been the same
after a retirement, and at two repetitions it trips with that pc. -/
def samePc : WatchdogStrategy (Word × Nat) Word :=
  { init := (0, 0)
    sample := fun w snap =>
      let run := if snap.pc = w.1 then w.2 + 1 else 0
      ((snap.pc, run), if 2 ≤ run then some snap.pc else none) }

/-- The launch state of a core with `samePc` plugged in, with the words `ws` at address 0, the strategy's
state `w` and the parameters `p`. -/
def pluggedWords (w : Word × Nat) (p : Params) (ws : List Word) : Plugged.State (Word × Nat) Word :=
  { launchStateWith samePc p Config.fill [] [] with mem := placeWords 0 ws [], wd := w }

/-- `s` with the Word `v` in register `r`. -/
def withReg (r : Fin 8) (v : Word) (s : State) : State := s.setReg r v

/-! ## Well-formedness: one check, one ill-formed term for it in each position -/

theorem test_wf_refuses_literal_above_32767 : (Instr.push (.lit 32768)).wf = false := by decide
theorem test_wf_refuses_in_position_b : (Instr.set (.reg 0) (.lit 65535)).wf = false := by decide
theorem test_wf_refuses_in_position_c : (Instr.add (.reg 0) (.lit 1) (.lit 40000)).wf = false := by decide
theorem test_wf_accepts_bounds : (Instr.add (.reg 7) (.lit 32767) (.lit 0)).wf = true := by decide

/-! ## Decoding: a word sequence for every constructor, from R55 and the vectors' encodings -/

theorem test_decode_halt : decode [0] = .instr (.halt) := by decide
theorem test_decode_set : decode [1, 32775, 9] = .instr (.set (.reg 7) (.lit 9)) := by decide
theorem test_decode_push : decode [2, 5] = .instr (.push (.lit 5)) := by decide
theorem test_decode_pop : decode [3, 32768] = .instr (.pop (.reg 0)) := by decide
theorem test_decode_eq : decode [4, 32768, 32769, 4] = .instr (.eq (.reg 0) (.reg 1) (.lit 4)) := by decide
theorem test_decode_gt : decode [5, 32768, 7, 3] = .instr (.gt (.reg 0) (.lit 7) (.lit 3)) := by decide
theorem test_decode_jmp : decode [6, 10] = .instr (.jmp (.lit 10)) := by decide
theorem test_decode_jt : decode [7, 32768, 20] = .instr (.jt (.reg 0) (.lit 20)) := by decide
theorem test_decode_jf : decode [8, 1, 30] = .instr (.jf (.lit 1) (.lit 30)) := by decide
theorem test_decode_add : decode [9, 32768, 32769, 5] = .instr (.add (.reg 0) (.reg 1) (.lit 5)) := by decide
theorem test_decode_mult : decode [10, 32768, 7, 7] = .instr (.mult (.reg 0) (.lit 7) (.lit 7)) := by decide
theorem test_decode_mod : decode [11, 32768, 17, 5] = .instr (.mod (.reg 0) (.lit 17) (.lit 5)) := by decide
theorem test_decode_and : decode [12, 32768, 12, 10] = .instr (.and (.reg 0) (.lit 12) (.lit 10)) := by decide
theorem test_decode_or : decode [13, 32768, 21845, 10922] = .instr (.or (.reg 0) (.lit 21845) (.lit 10922)) := by decide
theorem test_decode_not : decode [14, 32768, 0] = .instr (.not (.reg 0) (.lit 0)) := by decide
theorem test_decode_rmem : decode [15, 32770, 100] = .instr (.rmem (.reg 2) (.lit 100)) := by decide
theorem test_decode_wmem : decode [16, 32768, 32769] = .instr (.wmem (.reg 0) (.reg 1)) := by decide
theorem test_decode_call : decode [17, 100] = .instr (.call (.lit 100)) := by decide
theorem test_decode_ret : decode [18] = .instr (.ret) := by decide
theorem test_decode_out : decode [19, 65] = .instr (.out (.lit 65)) := by decide
theorem test_decode_in : decode [20, 32768] = .instr (.input (.reg 0)) := by decide
theorem test_decode_noop : decode [21] = .instr (.noop) := by decide
theorem test_decode_undefined : decode [32768] = .undefined 32768 := by decide
theorem test_decode_invalid_operand : decode [7, 0, 0x9000] = .invalidOperand 2 0x9000 := by decide
theorem test_decode_operand_a_before_b : decode [1, 0x9000] = .invalidOperand 1 0x9000 := by decide
theorem test_decode_short : decode [1, 32768] = .ranOut 2 := by decide
/-- The image bytes of R51's example. -/
theorem test_image_bytes : imageWords [0x09, 0x00, 0x00, 0x80, 0x01, 0x80, 0x05, 0x00] =
    some [9, 32768, 32769, 5] := by decide
theorem test_image_odd : imageWords [0x09, 0x00, 0x00] = none := by decide
theorem test_table_word_first_word_low : decodeTableWord 48 (1 + 32768 * 65536 + 5 * 65536 * 65536) =
    some (.set (.reg 0) (.lit 5)) := by decide
theorem test_table_word_operands_zero : decodeTableWord 16 9 = some (.add (.lit 0) (.lit 0) (.lit 0)) := by
  decide
theorem test_withFetchWord_runs : (after (State.reset.withFetchWord 16 21)).map (·.pc) = some 1 := by decide

/-! ## One step (95_test_vectors.md sections 1 and 2) -/

theorem test_halt : (after (words [0])).map (fun t => (t.engine, t.pc)) = some (.halted, 0) := by decide
theorem test_noop : (after (words [21])).map (fun t => (t.engine, t.pc, t.wdRun)) = some (.running, 1, 1) := by decide
theorem test_jmp : (after (withReg 3 40000 (words [6, 32771]))).map (fun t => t.pc) = some (40000) := by decide
theorem test_fetch_beyond_memory : faultAfter (wordsAtPc 40000 []) = some (some (.addressOutOfRange 40000 40000 .fetch), 40000) := by decide
theorem test_jt_taken_on_bit_15 : (after (withReg 0 32768 (words [7, 32768, 20]))).map (fun t => t.pc) = some (20) := by decide
theorem test_jt_not_taken : (after (wordsAtPc 5 [7, 32768, 20])).map (fun t => t.pc) = some (8) := by decide
theorem test_jf_taken : (after (words [8, 0, 30])).map (fun t => t.pc) = some (30) := by decide
theorem test_jf_not_taken : (after (words [8, 1, 30])).map (fun t => t.pc) = some (3) := by decide
theorem test_call_top_of_memory : (after (wordsAtPc 32766 [17, 9])).map (fun t => (t.stack, t.pc, t.wdSig.stkChg)) = some ([32768], 9, 1) := by decide
theorem test_call_at_32767 : faultAfter (wordsAtPc 32767 [17]) = some (some (.addressOutOfRange 32767 32768 .fetch), 32767) := by decide
theorem test_ret : (after ({ wordsAtPc 100 [18] with stack := [2, 50000] })).map (fun t => (t.stack, t.pc)) = some ([2], 50000) := by decide
theorem test_ret_empty_halts : (after (wordsAtPc 100 [18])).map (fun t => (t.engine, t.reason, t.pc)) = some (.halted, none, 100) := by decide
theorem test_set_register : (after (words [1, 32768, 5])).map (fun t => (t.regs[0], t.pc, t.wdSig, t.wdRun)) = some (5, 3, ⟨1, 0, 0⟩, 0) := by decide
theorem test_set_memory : (after (words [1, 100, 5])).map (fun t => (Memory.read t.mem 100, t.wdSig)) = some (5, ⟨0, 1, 0⟩) := by decide
theorem test_push_no_second_indirection : (after (withReg 1 5 (withReg 0 32769 (words [2, 32768])))).map (fun t => t.stack) = some ([32769]) := by decide
theorem test_push_full_stack : faultAfter ({ words [2, 5] with params := { Params.default with stackDepth := some 0 } }) = some (some (.stackOverflow 0), 0) := by decide
theorem test_pop_zero_is_not_quiet : (after ({ words [3, 32768] with stack := [0] })).map (fun t => (t.stack, t.wdSig, t.wdRun)) = some ([], ⟨0, 0, 1⟩, 0) := by decide
theorem test_pop_empty : faultAfter (words [3, 32768]) = some (some (.stackUnderflow 0), 0) := by decide
theorem test_rmem_reads_own_operand : (after (words [15, 32768, 1])).map (fun t => t.regs[0]) = some (32768) := by decide
theorem test_rmem_beyond_memory : faultAfter (withReg 1 32768 (words [15, 32768, 32769])) = some (some (.addressOutOfRange 0 32768 .read), 0) := by decide
theorem test_wmem_register_address : (after (withReg 1 9 (withReg 0 200 (words [16, 32768, 32769])))).map (fun t => Memory.read t.mem 200) = some (9) := by decide
theorem test_wmem_beyond_memory : faultAfter (withReg 0 32768 (words [16, 32768, 5])) = some (some (.addressOutOfRange 0 32768 .write), 0) := by decide
theorem test_eq_16_bits : (after (withReg 1 32768 (words [4, 32768, 32769, 0]))).map (fun t => t.regs[0]) = some (0) := by decide
theorem test_eq_own_destination : (after (withReg 0 7 (words [4, 32768, 32768, 32768]))).map (fun t => t.regs[0]) = some (1) := by decide
theorem test_gt_unsigned : (after (withReg 1 40000 (words [5, 32768, 32769, 32767]))).map (fun t => t.regs[0]) = some (1) := by decide
theorem test_gt_strict : (after (words [5, 32768, 5, 5])).map (fun t => t.regs[0]) = some (0) := by decide
theorem test_add_wraps : (after (words [9, 32768, 32767, 5])).map (fun t => t.regs[0]) = some (4) := by decide
theorem test_add_16_bit_inputs : (after (withReg 1 65535 (words [9, 32768, 32769, 32769]))).map (fun t => t.regs[0]) = some (32766) := by decide
theorem test_mult : (after (words [10, 32768, 181, 182])).map (fun t => t.regs[0]) = some (174) := by decide
theorem test_mult_16_bit_inputs : (after (withReg 1 65535 (words [10, 32768, 32769, 32769]))).map (fun t => t.regs[0]) = some (1) := by decide
theorem test_mod_16_bit_input : (after (withReg 1 40000 (words [11, 32768, 32769, 32767]))).map (fun t => t.regs[0]) = some (7233) := by decide
theorem test_mod_by_zero : faultAfter (words [11, 32768, 7, 32769]) = some (some (.divisionByZero 0), 0) := by decide
theorem test_and_clears_bit_15 : (after (withReg 1 40000 (words [12, 32768, 32769, 32767]))).map (fun t => t.regs[0]) = some (7232) := by decide
theorem test_or_no_mask : (after (withReg 1 40000 (words [13, 32768, 32769, 1]))).map (fun t => t.regs[0]) = some (40001) := by decide
theorem test_not_zero : (after (words [14, 32768, 0])).map (fun t => t.regs[0]) = some (32767) := by decide
theorem test_not_16_bit_input : (after (withReg 1 40000 (words [14, 32768, 32769]))).map (fun t => t.regs[0]) = some (25535) := by decide
theorem test_out : (after (withReg 0 40000 (words [19, 32768]))).map (fun t => (t.outStream, t.pc, t.wdRun)) = some ([40000], 2, 1) := by decide
theorem test_in : (after ({ words [20, 300] with inStream := [7, 8] })).map (fun t => (Memory.read t.mem 300, t.inStream, t.wdSig)) = some (7, [8], ⟨0, 1, 0⟩) := by decide
theorem test_in_holds : step (words [20, 32768]) = .fault .inputHold := rfl
theorem test_in_invalid_operand_before_hold : faultAfter (words [20, 0x9000]) = some (some (.invalidOperand 0 1 36864), 0) := by decide
theorem test_undefined_opcode_skipped : (after (words [65535])).map (fun t => (t.diagStream, t.pc, t.engine, t.wdRun)) = some ([.undefinedOpcodeSkipped 0 65535], 1, .running, 1) := by decide
theorem test_undefined_opcode_fault_policy : faultAfter ({ words [22] with params := { Params.default with undefPolicy := .fault } }) = some (some (.undefinedOpcode 0 22), 0) := by decide
theorem test_mod_at_32765 : faultAfter (wordsAtPc 32765 [11, 32768, 5]) = some (some (.addressOutOfRange 32765 32768 .fetch), 32765) := by decide
theorem test_mod_at_32764 : faultAfter (wordsAtPc 32764 [11, 32768, 5, 0]) = some (some (.divisionByZero 32764), 32764) := by decide
theorem test_invalid_operand_before_zero_divisor : faultAfter (words [11, 0x9000, 5, 0]) = some (some (.invalidOperand 0 1 36864), 0) := by decide
theorem test_watchdog_trips_at_limit : faultAfter ({ words [6, 0] with wd := ⟨⟨0, 0, 0⟩, 4⟩, params := { Params.default with wdLimit := 5 } }) = some (some (.watchdogTripped ⟨0, 0, 0⟩), 0) := by decide
/-- Another strategy runs in the same core and trips with its own diagnostic (R145). -/
theorem test_plugged_strategy_samples :
    stepWith samePc (pluggedWords (0, 0) Params.default [6, 0]) =
      .next (pluggedWords (0, 1) Params.default [6, 0]) := rfl
theorem test_plugged_strategy_trips :
    stepWith samePc (pluggedWords (0, 1) Params.default [6, 0]) =
      .next ((pluggedWords (0, 2) Params.default [6, 0]).raise (.watchdogTripped 0)) := rfl
/-- `WD_ENABLE = false`: it is never consulted (R135). -/
theorem test_plugged_strategy_disabled :
    stepWith samePc (pluggedWords (0, 1) { Params.default with wdEnable := false } [6, 0]) =
      .next (pluggedWords (0, 1) { Params.default with wdEnable := false } [6, 0]) := rfl
theorem test_fault_codes : [FaultRecord.undefinedOpcode (D := Signature) 0 22, .stackUnderflow 0, .divisionByZero 0,
    .invalidOperand 0 1 32776, .watchdogTripped ⟨0, 0, 0⟩, .addressOutOfRange 0 0 .fetch,
    .stackOverflow 0].map FaultRecord.code = [1, 2, 3, 4, 5, 6, 7] := by decide
theorem test_termination_reason : ((after (words [11, 32768, 7, 0])).map terminationReason) =
    some (some (.faulted (.divisionByZero 0))) := by decide

/-- What a run returned, and register 0 at its end. -/
def runEnd : RunAnswer WdRegisters Signature → Option (TerminationReason Signature × Word)
  | .returned r t => some (r, t.regs[0])
  | .notReturned _ => none

/-- R83, R128: `in r0; halt` holds, reads the Word supplied at the second turn, halts; while it holds the
run has not returned. -/
theorem test_run_input_halt : runEnd (run [[], [7], []] (words [20, 32768, 0])) = some (.halted, 7) := by
  decide
theorem test_run_holds : run [[], []] (words [20, 32768, 0]) = .notReturned (words [20, 32768, 0]) := by
  decide
/-- R18, R83: a fault is returned with its whole record. -/
theorem test_run_faulted :
    runEnd (run [[], [], []] (words [21, 15, 32768, 32769, 0])) = some (.halted, 21) ∧
    runEnd (run [[], []] (withReg 1 40000 (words [21, 15, 32768, 32769]))) =
      some (.faulted (.addressOutOfRange 1 40000 .read), 0) := by decide

/-- R181: a new launch keeps what the host has queued, and nothing else. -/
theorem test_relaunch_keeps_input :
    imageWords [0x15, 0x00] = some [21] ∧
    relaunch (fun _ => 0) [0x15, 0x00] { words [6, 0] with pc := 9, inStream := [7], outStream := [65] } =
      .next (launchState Params.default (fun _ => 0) [21] [7]) := ⟨by decide, rfl⟩

/-! ## Witnesses: for each statement with hypotheses (and each of its clauses) a state and operands that
meet them all -/

theorem witness_DecodeOfEncodeIsIdentity : (Instr.add (.reg 7) (.lit 32767) (.lit 0)).wf = true := by decide
theorem witness_DecodedWordsAreTheEncoding : decode [14, 32775, 32767, 5] = .instr (.not (.reg 7) (.lit 32767)) := by decide
theorem witness_OperandValueResolvedOnce : decodeOperand 32767 = some (.lit 32767) ∧ (32767 : Word).toNat ≤ 32767 ∧
    decodeOperand 32768 = some (.reg 0) ∧ (32768 : Word).toNat = 32768 + (0 : Fin 8).val := by decide
theorem witness_StepRunsDecodedInstruction : let s := wordsAtPc 32764 [9, 32775, 32767, 0]
    (Instr.add (.reg 7) (.lit 32767) (.lit 0)).wf = true ∧ s.engine = .running ∧
    StandsAtPc (encode (.add (.reg 7) (.lit 32767) (.lit 0))) s := by
  unfold StandsAtPc; decide
theorem witness_OpcodeFetchBeyondMemoryFaults : let s := wordsAtPc 32768 []
    s.engine = .running ∧ 32768 ≤ s.pc.toNat := by decide
theorem witness_OperandFetchBeyondMemoryFaults : let s := wordsAtPc 32766 [1, 32768]
    let i := Instr.set (.reg 0) (.lit 5)
    i.wf = true ∧ s.engine = .running ∧ 1 ≤ 2 ∧ 2 ≤ i.arity ∧
    StandsAtPc ((encode i).take 2) s ∧ s.pc.toNat + 2 = 32768 := by
  unfold StandsAtPc; decide
theorem witness_InvalidOperandWordFaults : let s := words [7, 0, 32776]
    let i := Instr.jt (.lit 0) (.lit 0)
    i.wf = true ∧ s.engine = .running ∧ 1 ≤ 2 ∧ 2 ≤ i.arity ∧ 32776 ≤ (32776 : Word).toNat ∧
    StandsAtPc ((encode i).take 2 ++ [32776]) s := by
  unfold StandsAtPc; decide
theorem witness_DecodeDependsOnWordsAtPcOnly : let s := wordsAtPc 32766 [21, 0]
    let t := withReg 0 5 (s.setMem 7 9)
    s.pc = t.pc ∧ s ≠ t ∧
    ∀ k, k < 4 → Memory.read s.mem (s.pc.toNat + k) = Memory.read t.mem (t.pc.toNat + k) := by decide
theorem witness_TransfersSetPcExactly : let s := { words [] with stack := [2, 65535] }
    value (.lit 1) s ≠ 0 ∧ value (.lit 0) s = 0 ∧ s.params.stackDepth ≠ some s.stack.length ∧
    s.stack = [2] ++ [65535] := by decide
theorem witness_UndefinedOpcodeIsLoggedAndSkipped : let s := wordsAtPc 32767 [22]
    s.engine = .running ∧ s.pc.toNat < 32768 ∧ s.params.undefPolicy = .skip ∧
    22 ≤ (Memory.read s.mem s.pc.toNat).toNat := by decide
theorem witness_UndefinedOpcodeFaultsUnderFaultPolicy : let s := { wordsAtPc 32767 [22] with params := { Params.default with undefPolicy := .fault } }
    s.engine = .running ∧ s.pc.toNat < 32768 ∧ s.params.undefPolicy = .fault ∧
    22 ≤ (Memory.read s.mem s.pc.toNat).toNat := by decide
theorem witness_CallPushesReturnAddress_full : let s := { words [] with stack := [7], params := { Params.default with stackDepth := some 1 } }
    s.params.stackDepth = some s.stack.length := by decide
theorem witness_CallPushesReturnAddress_room : let s := { words [] with stack := [7], params := { Params.default with stackDepth := some 2 } }
    s.params.stackDepth ≠ some s.stack.length := by decide
theorem witness_PushAppendsValue_full : let s := { words [] with stack := [7], params := { Params.default with stackDepth := some 1 } }
    s.params.stackDepth = some s.stack.length := by decide
theorem witness_PushAppendsValue_room : let s := { words [] with stack := [7], params := { Params.default with stackDepth := some 2 } }
    s.params.stackDepth ≠ some s.stack.length := by decide
theorem witness_RetPopsPcOrHalts : (words [18]).stack = [] ∧ { words [18] with stack := [2, 65535] }.stack = [2] ++ [65535] := by decide
theorem witness_PopMovesTopOrUnderflows : (Operand.lit 32767).wf = true ∧ Memory.wf (words [3, 32767]).mem ∧ (words [3, 32767]).stack = [] ∧
    { words [3, 32767] with stack := [5] }.stack = [] ++ [5] := by decide
theorem witness_SetCopiesValue : (Operand.reg 7).wf = true ∧ (Operand.lit 32767).wf = true ∧ Memory.wf (words [1, 32767, 5]).mem := by decide
theorem witness_EqWritesEquality : (Operand.reg 7).wf = true ∧ (Operand.lit 32767).wf = true ∧ Memory.wf (words [4, 32767, 32769, 4]).mem := by decide
theorem witness_GtWritesUnsignedComparison : (Operand.reg 7).wf = true ∧ (Operand.lit 32767).wf = true ∧ Memory.wf (words [5, 32767, 7, 3]).mem := by decide
theorem witness_AddWritesSumModulo32768 : (Operand.reg 7).wf = true ∧ (Operand.lit 32767).wf = true ∧ Memory.wf (words [9, 32767, 32767, 5]).mem := by decide
theorem witness_MultWritesProductModulo32768 : (Operand.reg 7).wf = true ∧ (Operand.lit 32767).wf = true ∧ Memory.wf (words [10, 32767, 7, 7]).mem := by decide
theorem witness_AndWritesBitwiseAnd : (Operand.reg 7).wf = true ∧ (Operand.lit 32767).wf = true ∧ Memory.wf (words [12, 32767, 12, 10]).mem := by decide
theorem witness_OrWritesBitwiseOr : (Operand.reg 7).wf = true ∧ (Operand.lit 32767).wf = true ∧ Memory.wf (words [13, 32767, 12, 10]).mem := by decide
theorem witness_NotWritesComplementOf15Bits : (Operand.reg 7).wf = true ∧ (Operand.lit 32767).wf = true ∧ Memory.wf (words [14, 32767, 0]).mem := by decide
theorem witness_ModWritesRemainderOrFaults : let s := words [11, 32767, 17, 5]
    (Operand.lit 32767).wf = true ∧ Memory.wf s.mem ∧ (value (.lit 0) s).toNat = 0 ∧ (value (.lit 1) s).toNat ≠ 0 := by decide
theorem witness_RmemReadsMemory : let s := withReg 1 32768 (words [15, 32768, 32769])
    (Operand.reg 0).wf = true ∧ Memory.wf s.mem ∧ 32768 ≤ (value (.reg 1) s).toNat ∧
    (value (.lit 32767) s).toNat < 32768 := by decide
theorem witness_WmemWritesMemory : let s := withReg 1 32768 (words [16, 32769, 5])
    Memory.wf s.mem ∧ 32768 ≤ (value (.reg 1) s).toNat ∧ (value (.lit 32767) s).toNat < 32768 := by decide
theorem witness_InputConsumesOldestWord : let s := { words [20, 32768] with inStream := [104, 105] }
    (Operand.reg 0).wf = true ∧ Memory.wf s.mem ∧ s.inStream = 104 :: [105] := by decide
theorem witness_HoldIsLiftedByHostInput : let s := words [20, 32768]
    s.engine = .running ∧ fetch s = .instr (.input (.reg 0)) ∧ Memory.wf s.mem ∧ s.inStream = [] := by decide

/-- A step that answers a next state, for the statements about every such step. -/
theorem witness_step : step (words [21]) = .next { words [21] with pc := 1, wd := ⟨⟨0, 0, 0⟩, 1⟩ } := rfl
theorem witness_OnlyInConsumesInput :
    (after { words [20, 32768] with inStream := [104] }).map (fun t => t.inStream) = some [] := by decide
theorem witness_OnlyOutAppendsOutput :
    (after (words [19, 65])).map (fun t => t.outStream) = some [65] := by decide
theorem witness_MemoryReadAfterWrite : Memory.wf (words [1, 2, 3]).mem ∧ 32767 < 32768 := by decide
theorem witness_StoredWordIsFetched :
    Memory.wf (words [16, 32767, 1]).mem ∧ (value (.lit 32767) (words [16, 32767, 1])).toNat < 32768 := by
  decide
theorem witness_LaunchLoadsImage : ([0x15, 0x00] : List Byte).length = 2 * 1 ∧ 1 ≤ 32768 := by decide
theorem witness_BadImageIsRefused_odd : ([0x15] : List Byte).length % 2 = 1 := by decide
theorem witness_BadImageIsRefused_long : 65536 < (List.replicate 65537 (0 : Byte)).length := by
  rw [List.length_replicate]; decide
theorem witness_LaunchResetsEverythingElse : 1 ≤ Params.default.wdLimit ∧
    launch Params.default (fun _ => 0) [0x15, 0x00] [7] =
      .next (launchState Params.default (fun _ => 0) [21] [7]) :=
  ⟨by decide, rfl⟩

/-- A state of a run that has pushed a Word: it meets the invariant. -/
def running : State := { words [2, 7, 21] with pc := 2, stack := [7], wd := ⟨⟨0, 0, 1⟩, 0⟩ }

theorem running_invariant : Invariant running where
  memWf := by decide
  limitPos := by decide
  runBound := by decide
  runBelow := by intro; decide
  reasonIff := by decide
  depth := by intro d h; cases h
  faultPc := by intro r p h; cases h
  tripSig := by intro sig h; cases h

theorem witness_StepKeepsInvariant : Invariant running ∧
    step running = .next { running with pc := 3, wd := ⟨⟨0, 0, 1⟩, 1⟩ } :=
  ⟨running_invariant, rfl⟩
theorem witness_TerminalStatesHaveNoStep :
    { words [] with engine := .halted }.engine = .halted ∧
    { words [] with engine := .faulted }.engine = .faulted := by decide
theorem witness_RunningEngineStepsOrHolds : (words [20, 32768]).engine = .running := by decide
theorem witness_HaltedOnlyByHaltOrEmptyRet :
    (after (words [18])).map (fun t => t.engine) = some .halted := by decide
theorem witness_FaultsArePrecise :
    step (words [3, 32768]) = .next ((words [3, 32768]).raise (.stackUnderflow 0)) ∧
    ((words [3, 32768]).raise (.stackUnderflow 0)).engine = .faulted ∧
    ¬ ((words [3, 32768]).raise (.stackUnderflow 0)).tripped :=
  ⟨rfl, rfl, by rintro ⟨sig, h⟩; cases h⟩
theorem witness_DefaultAdvanceIsOnePlusArity :
    fetch (wordsAtPc 32767 [21]) = .instr .noop ∧ setsPc .noop = false ∧
    (after (wordsAtPc 32767 [21])).map (fun t => (t.engine, t.pc)) = some (.running, 32768) := by decide
theorem witness_SignatureCountsChanges :
    Memory.wf (words [2, 5]).mem ∧ (words [2, 5]).params.wdEnable = true ∧
    (∀ a, Instr.push (.lit 5) ≠ .input a) ∧
    exec (.push (.lit 5)) (words [2, 5]) =
      .next { words [2, 5] with pc := 2, stack := [5], wd := ⟨⟨0, 0, 1⟩, 0⟩ } :=
  ⟨by decide, by decide, fun _ h => (by cases h), rfl⟩
theorem witness_QuietStepChangesNothing :
    Memory.wf (words [21]).mem ∧ (words [21]).params.wdEnable = true ∧
    step (words [21]) = .next { words [21] with pc := 1, wd := ⟨⟨0, 0, 0⟩, 1⟩ } ∧
    ({ words [21] with pc := 1, wd := ⟨⟨0, 0, 0⟩, 1⟩ } : State).wdSig = (words [21]).wdSig :=
  ⟨by decide, by decide, rfl, rfl⟩
/-- The retired `noop` with the default strategy plugged in, and the same with a strategy of another type:
all that two cores may differ in, WD_ENABLE among it. -/
theorem witness_WatchdogOnlyEndsRuns :
    SameButWatchdog (words [21])
      (pluggedWords (5, 1) { Params.default with wdEnable := false } [21]) ∧
    stepWith (defaultWatchdog 32769) (words [21]) =
      .next { words [21] with pc := 1, wd := ⟨⟨0, 0, 0⟩, 1⟩ } :=
  ⟨⟨rfl, rfl, rfl, rfl, rfl⟩, rfl⟩
theorem witness_StrategyIsConsultedOncePerRetirement :
    Memory.wf (pluggedWords (5, 1) Params.default [6, 0]).mem ∧
    stepWith samePc (pluggedWords (5, 1) Params.default [6, 0]) =
      .next (pluggedWords (0, 0) Params.default [6, 0]) := ⟨by decide, rfl⟩

/-- `jmp` to its own address (R143's example), after `r` quiet retirements. -/
def spin (r : Nat) : State := { words [6, 0] with wd := ⟨⟨0, 0, 0⟩, r⟩ }

theorem step_spin (r : Nat) :
    step (spin r) = .next (retire (defaultWatchdog 32769) 0 evNone (spin r)) := rfl

theorem step_spin_on (r : Nat) (h : r + 1 < 32769) : step (spin r) = .next (spin (r + 1)) := by
  have hs : (defaultWatchdog 32769).sample ((spin r).setPc 0).wd (snapshot evNone ((spin r).setPc 0)) =
      (⟨⟨0, 0, 0⟩, r + 1⟩, none) :=
    congrArg (Prod.mk _) (if_neg (by omega : ¬ 32769 ≤ r + 1))
  rw [step_spin]
  show (Host.Outcome.next (sampleWatchdog _ evNone ((spin r).setPc 0)) : Result) = _
  simp only [sampleWatchdog, hs]
  rfl

theorem step_spin_trip : step (spin 32768) = .next ((spin 32769).raise (.watchdogTripped ⟨0, 0, 0⟩)) := rfl

theorem run_spin (k r : Nat) (h : r + k = 32768) :
    core.run (k + 1) (spin r) = .next ((spin 32769).raise (.watchdogTripped ⟨0, 0, 0⟩)) := by
  induction k generalizing r with
  | zero =>
    obtain rfl : r = 32768 := by omega
    show (match step (spin 32768) with
      | .next s' => core.run 0 s' | .fault f => .fault f | .refused f => .refused f) = _
    rw [step_spin_trip]; rfl
  | succ k ih =>
    show (match step (spin r) with
      | .next s' => core.run (k + 1) s' | .fault f => .fault f | .refused f => .refused f) = _
    rw [step_spin_on r (by omega)]
    exact ih (r + 1) (by omega)

theorem spin_invariant : Invariant (spin 0) where
  memWf := by decide
  limitPos := by decide
  runBound := by decide
  runBelow := by intro; decide
  reasonIff := by decide
  depth := by intro d h; cases h
  faultPc := by intro r p h; cases h
  tripSig := by intro sig h; cases h

theorem witness_WatchdogTripMeansNonTermination :
    Invariant (spin 0) ∧ (spin 0).engine = .running ∧ (spin 0).wdRun = 0 ∧
    (spin 0).params.wdEnable = true ∧ 32769 ≤ (spin 0).params.wdLimit ∧
    core.run (32768 + 1) (spin 0) = .next ((spin 32769).raise (.watchdogTripped ⟨0, 0, 0⟩)) ∧
    ((spin 32769).raise (.watchdogTripped ⟨0, 0, 0⟩)).tripped :=
  ⟨spin_invariant, rfl, rfl, rfl, Nat.le_refl _, run_spin 32768 0 rfl, ⟨_, rfl⟩⟩

end Sys2Proof.Tests
end

section
/-! PROOF. The memory family (spec/20_memory.md): the write law (R31) and the memory after a launch
(R33). The image is read as the list of its Words (`imageWords_eq_map`), each address of the launched
memory as an image Word or as the fill (`read_launchMemory_image`, `read_launchMemory_fill`). -/

namespace Sys2Proof.Machine

/-! ## The write law -/

/-- Settles O41, by the write law at the written address and at every other. -/
theorem memoryReadAfterWrite : Obligations.MemoryReadAfterWrite :=
  fun _ a v hm _ => ⟨Memory.read_write_self hm a v, fun _ hb => Memory.read_write_ne v hb⟩

/-! ## The Words of an image -/

/-- The Word of an image at the Word address `i`, low byte first (R33). -/
def imageWord (bytes : List Byte) (i : Nat) : Word :=
  BitVec.ofNat 16 ((bytes.getD (2 * i) 0).toNat + 256 * (bytes.getD (2 * i + 1) 0).toNat)

/-- Two bytes fit in a Word, so nothing is lost. -/
theorem imageWord_toNat (bytes : List Byte) (i : Nat) :
    (imageWord bytes i).toNat =
      (bytes.getD (2 * i) 0).toNat + 256 * (bytes.getD (2 * i + 1) 0).toNat := by
  have hlo := (bytes.getD (2 * i) 0).isLt
  have hhi := (bytes.getD (2 * i + 1) 0).isLt
  rw [imageWord, BitVec.toNat_ofNat, Nat.mod_eq_of_lt (by omega)]

/-- An image of `2 * n` bytes is the list of its `n` Words. By definition `imageWord (lo :: hi :: rest)` is
at `i + 1` what `imageWord rest` is at `i`, so the induction is on `n`, two bytes at a time. -/
theorem imageWords_eq_map (n : Nat) (bytes : List Byte) (h : bytes.length = 2 * n) :
    imageWords bytes = some ((List.range n).map (imageWord bytes)) := by
  induction n generalizing bytes with
  | zero => rw [List.eq_nil_of_length_eq_zero h]; rfl
  | succ n ih =>
    match bytes, h with
    | lo :: hi :: rest, h =>
      have hrest : rest.length = 2 * n := by simp only [List.length_cons] at h; omega
      rw [imageWords, ih rest hrest, List.range_succ_eq_map, List.map_cons, List.map_map]
      rfl

/-! ## The launched memory, address by address -/

/-- Cells that all lie above an address do not change what it reads as. -/
theorem Memory.read_append_of_lt (m : Memory) {n : Memory} {a : Nat} (h : ∀ c ∈ n, a < c.1) :
    Memory.read (m ++ n) a = Memory.read m a := by
  induction m with
  | nil => exact Memory.read_of_lt n a h
  | cons c m ih => simp only [List.cons_append, Memory.read, ih]

/-- Below the image length the launched memory holds the image (R33). -/
theorem read_launchMemory_image (fill : Nat → Word) (ws : List Word) {i : Nat} (h : i < ws.length) :
    Memory.read (launchMemory fill ws) i = ws[i] := by
  have habove : ∀ c ∈ fillCells fill ws.length (Config.memWords - ws.length), i < c.1 :=
    fun c hc => Nat.lt_of_lt_of_le h (fillCells_ge fill _ _ c hc).1
  have hread := read_imageCells ws 0 i h
  rw [Nat.zero_add] at hread
  rw [launchMemory, Memory.read_append_of_lt _ habove, hread]

/-- From the image length on the launched memory holds the fill (R33, R38). -/
theorem read_launchMemory_fill (fill : Nat → Word) (ws : List Word) {i : Nat} (h : ws.length ≤ i)
    (hi : i < Config.memWords) : Memory.read (launchMemory fill ws) i = fill i := by
  have hunlisted : i ∉ (imageCells 0 ws).map Prod.fst := fun hmem => by
    obtain ⟨c, hc, rfl⟩ := List.mem_map.1 hmem
    have := imageCells_ge ws 0 c hc
    omega
  have hread := read_fillCells fill (Config.memWords - ws.length) ws.length (i - ws.length) (by omega)
  rw [Nat.add_sub_cancel' h] at hread
  rw [launchMemory, Memory.read_append, if_neg hunlisted, hread]

/-! ## The launch -/

/-- A launch succeeds when the bytes are Words and memory has room for them (R34). -/
theorem launch_of_imageWords (p : Params) (fill : Nat → Word) {bytes : List Byte} (queued : List Word)
    {ws : List Word} (hws : imageWords bytes = some ws) (hlen : ws.length ≤ Config.memWords) :
    launch p fill bytes queued = .next (launchState p fill ws queued) := by
  simp only [launch, launchWith, hws, if_pos hlen, launchState]

/-- Settles O43: the image is the list of its Words, the launch succeeds, and every address is read in
the image or in the fill. -/
theorem launchLoadsImage : Obligations.LaunchLoadsImage := by
  intro p fill bytes queued n hbytes hn
  have hlen : ((List.range n).map (imageWord bytes)).length = n := by simp
  refine ⟨_, launch_of_imageWords p fill queued (imageWords_eq_map n bytes hbytes)
      (Nat.le_trans (Nat.le_of_eq hlen) hn),
    fun i hi => ?_,
    fun i hni hi => read_launchMemory_fill fill _ (Nat.le_trans (Nat.le_of_eq hlen) hni) hi⟩
  calc (Memory.read (launchMemory fill _) i).toNat
      = (((List.range n).map (imageWord bytes))[i]'(hlen.symm ▸ hi)).toNat :=
        congrArg _ (read_launchMemory_image fill _ _)
    _ = (imageWord bytes i).toNat := by rw [List.getElem_map, List.getElem_range]
    _ = _ := imageWord_toNat bytes i

end Sys2Proof.Machine
end

section
/-! PROOF. The encoding family (spec/30_encoding.md): the classes of an operand word (R53), the undefined
opcodes (R57), the invalid operand word (R58) and what decoding depends on (R62). Decoding is said once
over the format of the opcode (`decode_eq_withOperands`): its operand words are read in ascending order,
and the first one that is no operand decides. -/

namespace Sys2Proof

/-! ## The class of an operand word -/

/-- An operand word decodes to the well-formed operand it spells, and to nothing else (R53, R63). -/
theorem decodeOperand_eq_some_iff {w : Word} {o : Operand} :
    decodeOperand w = some o ↔ o.wf = true ∧ encodeOperand o = w :=
  ⟨decodeOperand_some, fun ⟨hwf, hw⟩ => hw ▸ decodeOperand_encodeOperand hwf⟩

/-- A literal operand is well formed when bit 15 of its word is clear (R53). -/
theorem Operand.wf_lit {v : Word} : (Operand.lit v).wf = true ↔ v.toNat ≤ 32767 := by
  rw [Operand.wf, decide_eq_true_iff, Config.regBase]
  omega

/-- The word of register `r` is 32768 + r (R53). -/
theorem encodeOperand_reg_eq_iff {r : Fin 8} {w : Word} :
    encodeOperand (.reg r) = w ↔ w.toNat = 32768 + r.val := by
  have hreg : (encodeOperand (.reg r)).toNat = 32768 + r.val := by
    rw [encodeOperand, Config.regBase, BitVec.toNat_ofNat]
    omega
  rw [← BitVec.toNat_inj, hreg, eq_comm]

/-- Settles O4, each class from the well-formed operands and their words. -/
theorem operandWordClasses : Obligations.OperandWordClasses := by
  intro w
  refine ⟨?_, fun r => ?_, decodeOperand_none_iff w⟩
  · rw [decodeOperand_eq_some_iff, Operand.wf_lit]
    exact and_iff_left rfl
  · rw [decodeOperand_eq_some_iff, encodeOperand_reg_eq_iff]
    exact and_iff_right rfl

/-! ## Reading operand words in order -/

/-- The `n` operand words from number `k` on, read in ascending order (R61, R72). -/
def withOperands (ws : List Word) (k : Nat) : Nat → (List Operand → Decoded) → Decoded
  | 0, f => f []
  | n + 1, f => withOperand ws k fun o => withOperands ws (k + 1) n fun os => f (o :: os)

/-- The number of operand words of a format (R51). -/
def Format.arity : Format → Nat
  | .f0 _ => 0
  | .f1 _ => 1
  | .f2 _ => 2
  | .f3 _ => 3

/-- What a format decodes to, given as many operands as it has; it is never given another number of
them. -/
def Format.complete : Format → List Operand → Decoded
  | .f0 i, [] => .instr i
  | .f1 i, [a] => .instr (i a)
  | .f2 i, [a, b] => .instr (i a b)
  | .f3 i, [a, b, c] => .instr (i a b c)
  | _, os => .ranOut (os.length + 1)

/-- A defined opcode decodes by reading the operand words of its format (R52, R61). -/
theorem decode_eq_withOperands {op : Word} {f : Format} (h : opcodeMap op.toNat = some f)
    (rest : List Word) :
    decode (op :: rest) = withOperands (op :: rest) 1 f.arity f.complete := by
  cases f <;> simp only [decode, h] <;> rfl

/-- An undefined opcode word decodes to itself, and no operand word is read (R57, R71). -/
theorem decode_of_opcodeMap_none {op : Word} (h : opcodeMap op.toNat = none) (rest : List Word) :
    decode (op :: rest) = .undefined op := by
  simp only [decode, h]

/-! ## Undefined opcodes -/

/-- Reading an operand word never makes the opcode undefined. -/
theorem withOperand_ne_undefined {ws : List Word} {k : Nat} {f : Operand → Decoded} {w : Word}
    (hf : ∀ o, f o ≠ .undefined w) : withOperand ws k f ≠ .undefined w := by
  unfold withOperand
  split
  · exact Decoded.noConfusion
  · split
    · exact Decoded.noConfusion
    · exact hf _

/-- Reading operand words never makes the opcode undefined. -/
theorem withOperands_ne_undefined {ws : List Word} {w : Word} (n k : Nat) {f : List Operand → Decoded}
    (hf : ∀ os, f os ≠ .undefined w) : withOperands ws k n f ≠ .undefined w := by
  induction n generalizing k f with
  | zero => exact hf []
  | succ n ih => exact withOperand_ne_undefined fun o => ih (k + 1) fun os => hf (o :: os)

/-- A format completes to no undefined opcode. -/
theorem Format.complete_ne_undefined (f : Format) (os : List Operand) (w : Word) :
    f.complete os ≠ .undefined w := by
  unfold Format.complete
  split <;> exact Decoded.noConfusion

/-- Settles O5: the words are undefined exactly where the opcode map is, which is from 22 on. -/
theorem undefinedOpcodeWords : Obligations.UndefinedOpcodeWords := by
  intro w rest
  rw [← opcodeMap_none_iff]
  refine ⟨fun h => ?_, fun h => decode_of_opcodeMap_none h rest⟩
  cases hf : opcodeMap w.toNat with
  | none => rfl
  | some f =>
    rw [decode_eq_withOperands hf] at h
    exact absurd h (withOperands_ne_undefined _ _ fun os => f.complete_ne_undefined os w)

/-! ## Invalid operand words -/

/-- Where the words of well-formed operands precede an invalid word, that word decides (R58, R72). -/
theorem withOperands_invalid {ws rest : List Word} {w : Word} (hw : 32776 ≤ w.toNat) (n k : Nat)
    (os : List Operand) (f : List Operand → Decoded) (hn : os.length < n)
    (hos : ∀ o ∈ os, o.wf = true) (hws : ws.drop k = os.map encodeOperand ++ w :: rest) :
    withOperands ws k n f = .invalidOperand (k + os.length) w := by
  induction n generalizing k os f with
  | zero => exact absurd hn (Nat.not_lt_zero _)
  | succ n ih =>
    have hk : ws[k]? = (os.map encodeOperand ++ w :: rest)[0]? := by
      rw [← hws, List.getElem?_drop]; rfl
    cases os with
    | nil => rw [withOperands, withOperand_some hk, (decodeOperand_none_iff w).2 hw]; rfl
    | cons o os =>
      obtain ⟨ho, hos⟩ := List.forall_mem_cons.1 hos
      have hrest : ws.drop (k + 1) = os.map encodeOperand ++ w :: rest := by
        rw [← List.tail_drop, hws]; rfl
      rw [withOperands, withOperand_encode hk ho,
        ih (k + 1) os _ (Nat.lt_of_succ_lt_succ hn) hos hrest, List.length_cons, Nat.add_right_comm]
      rfl

/-- The format of an instruction's own opcode has the instruction's arity, and the instruction's
operands complete it to the instruction (R51, R55). -/
theorem opcodeMap_opcodeOf_completes (i : Instr) :
    ∃ f, opcodeMap (opcodeOf i).toNat = some f ∧ f.arity = i.arity ∧
      f.complete i.operands = .instr i := by
  cases i <;> exact ⟨_, rfl, rfl, rfl⟩

/-- No format has more than three operand words (R50). -/
theorem Format.arity_le_three (f : Format) : f.arity ≤ 3 := by
  cases f <;> simp [Format.arity]

/-- No instruction has more than three operand words (R50). -/
theorem Instr.arity_le_three (i : Instr) : i.arity ≤ 3 := by
  obtain ⟨f, -, hf, -⟩ := opcodeMap_opcodeOf_completes i
  exact hf ▸ f.arity_le_three

/-- Operand word `k` of an instruction is invalid and the words before it are the instruction's own: the
instruction decodes to that invalid operand, whatever follows (R58, R72). -/
theorem decode_invalidOperand {i : Instr} {k : Nat} {w : Word} (hi : i.wf = true) (hk : 1 ≤ k)
    (hki : k ≤ i.arity) (hw : 32776 ≤ w.toNat) (rest : List Word) :
    decode ((encode i).take k ++ w :: rest) = .invalidOperand k w := by
  obtain ⟨j, rfl⟩ : ∃ j, k = j + 1 := ⟨k - 1, by omega⟩
  obtain ⟨f, hf, harity, -⟩ := opcodeMap_opcodeOf_completes i
  have hlen : (i.operands.take j).length = j := List.length_take_of_le (Nat.le_of_succ_le hki)
  have hwf : ∀ o ∈ i.operands.take j, o.wf = true := fun o ho =>
    List.all_eq_true.1 hi o (List.mem_of_mem_take ho)
  have hws : (opcodeOf i :: ((i.operands.map encodeOperand).take j ++ w :: rest)).drop 1 =
      (i.operands.take j).map encodeOperand ++ w :: rest := by rw [List.map_take]; rfl
  rw [encode, List.take_succ_cons, List.cons_append, decode_eq_withOperands hf, harity,
    withOperands_invalid hw _ _ _ _ (by omega) hwf hws, hlen, Nat.add_comm]

end Sys2Proof

namespace Sys2Proof.Machine

/-- Settles O10: the words that stand at the pc decode to the invalid operand, and the step is its fault. -/
theorem invalidOperandWordFaults : Obligations.InvalidOperandWordFaults := by
  intro i k w s hi hrun hk hki hw hstands
  have hlen : ((encode i).take k ++ [w]).length ≤ maxInstrWords := by
    have := i.arity_le_three
    simp only [List.length_append, List.length_take, List.length_singleton, maxInstrWords]
    omega
  obtain ⟨rest, hrest⟩ := wordsAt_of_stands hstands hlen
  have hfetch : fetch s = .invalidOperand k w := by
    rw [fetch, hrest, List.append_assoc]
    exact decode_invalidOperand hi hk hki hw rest
  refine ⟨s.raise (.invalidOperand s.pc k w), ?_, rfl⟩
  rw [step_running hrun, stepEnding, hfetch]
  rfl

/-! ## What decoding depends on -/

/-- Memories that agree on the `n` words from `a` on give the same words there. -/
theorem wordsAt_congr {m m' : Memory} {a n : Nat}
    (h : ∀ k, k < n → Memory.read m (a + k) = Memory.read m' (a + k)) :
    wordsAt m a n = wordsAt m' a n := by
  apply List.ext_getElem?
  intro k
  rw [wordsAt_getElem?, wordsAt_getElem?]
  split
  · next hk => rw [h k hk.1]
  · rfl

/-- Settles O11: `fetch` decodes the four words at the pc, which are the same in both states. -/
theorem decodeDependsOnWordsAtPcOnly : Obligations.DecodeDependsOnWordsAtPcOnly := by
  intro s t hpc hwords
  rw [← hpc] at hwords
  rw [fetch, fetch, ← hpc]
  exact congrArg decode (wordsAt_congr hwords)

end Sys2Proof.Machine
end

section
/-! PROOF. The family of the step and its operands (spec/40_step_and_operands.md): the fetch of an opcode
word beyond the end of memory (R71). -/

namespace Sys2Proof.Machine

variable {W D : Type}

/-- From an address beyond the end of memory no word is fetched (R35, R39). -/
theorem wordsAt_beyond_memory (m : Memory) {a : Nat} (h : Config.memWords ≤ a) (n : Nat) :
    wordsAt m a n = [] :=
  List.eq_nil_of_length_eq_zero <| by
    rw [wordsAt_length, Nat.sub_eq_zero_of_le h, Nat.min_zero]

/-- With the pc beyond the end of memory the opcode word, number 0, is the one that is missing (R71). -/
theorem fetch_beyond_memory {s : Plugged.State W D} (h : Config.memWords ≤ s.pc.toNat) :
    fetch s = .ranOut 0 := by
  rw [fetch, wordsAt_beyond_memory s.mem h]
  rfl

/-- Word number 0 of the instruction is the one at the pc (R50). -/
@[simp] theorem wordAddress_zero (s : Plugged.State W D) : wordAddress 0 s = s.pc :=
  BitVec.add_zero s.pc

/-- A running engine that lacks word `k` of its instruction faults on that word's address (R71, R72). -/
theorem step_ranOut {s : State} {k : Nat} (hrun : s.engine = .running) (hfetch : fetch s = .ranOut k) :
    step s = .next (s.raise (.addressOutOfRange s.pc (wordAddress k s) .fetch)) := by
  rw [step_running hrun, stepEnding, hfetch]
  rfl

/-- Settles O8: no opcode word is fetched, and the address that is missing is the pc itself. -/
theorem opcodeFetchBeyondMemoryFaults : Obligations.OpcodeFetchBeyondMemoryFaults := by
  intro s hrun hpc
  have hstep := step_ranOut hrun (fetch_beyond_memory hpc)
  rw [wordAddress_zero] at hstep
  exact ⟨_, hstep, rfl⟩

end Sys2Proof.Machine
end

section
/-! PROOF. The control-flow family (spec/41_control_flow.md). What `exec` answers is said once for each way
an instruction of the family ends (`exec_of_ending_halt`, `exec_of_ending_fault`, `exec_of_ending_quiet`,
`exec_of_ending_stack`); an equation for each instruction whose ending branches says which way it takes. -/

namespace Sys2Proof.Machine

variable {W D : Type}

/-! ## The ways an instruction ends -/

section
variable {i : Instr} {s : State} {next : Word}

/-- An instruction that halts writes the engine state and nothing else (R163). -/
theorem exec_of_ending_halt (h : ending i s = .halt) : exec i s = .next { s with engine := .halted } := by
  rw [exec_eq, h]
  rfl

/-- An instruction that faults raises its record (R161). -/
theorem exec_of_ending_fault {r : FaultRecord Signature} (h : ending i s = .fault r) :
    ∃ t, exec i s = .next t ∧ Raised r s t :=
  ⟨s.raise r, by rw [exec_eq, h]; rfl, rfl⟩

/-- An instruction without an effect retires quietly, with a new pc (R78, R137). -/
theorem exec_of_ending_quiet (h : ending i s = .retire next evNone s) :
    ∃ t, exec i s = .next t ∧ Retired next false false false s t ∧ DataSame s t ∧
      StackAndStreamsSame s t := by
  rw [exec_eq, h]
  exact finish_quiet next s

/-- An instruction whose effect is the new stack `stk` retires with the stack record (R78, R136). -/
theorem exec_of_ending_stack {stk : List Word}
    (h : ending i s = .retire next evStk { s with stack := stk }) :
    ∃ t, exec i s = .next t ∧ Retired next false false true s t ∧ t.stack = stk ∧ DataSame s t ∧
      StreamsSame s t := by
  rw [exec_eq, h]
  exact ⟨_, rfl, retire_retired next evStk s _ rfl rfl rfl rfl, retire_stack ..,
    ⟨retire_regs .., fun a => by rw [retire_mem]⟩, retire_outStream .., retire_inStream ..,
    retire_diagStream ..⟩

/-- A retirement puts its next pc, as it is, into the pc (R78, R97). -/
theorem pc_of_retired {r : Result} {reg mem stk : Bool} {P : State → Prop}
    (h : ∃ t, r = .next t ∧ Retired next reg mem stk s t ∧ P t) : ∃ t, r = .next t ∧ t.pc = next := by
  obtain ⟨t, ht, ⟨hpc, -⟩, -⟩ := h
  exact ⟨t, ht, hpc⟩

end

/-! ## Halting, jumps and noop -/

/-- Settles O14: `halt` ends by halting. -/
theorem haltStopsTheEngine : Obligations.HaltStopsTheEngine := fun _ => exec_of_ending_halt rfl

/-- Settles O15: `jmp` ends quietly with its value as next pc. -/
theorem jmpSetsPc : Obligations.JmpSetsPc := fun _ _ => exec_of_ending_quiet rfl

/-- Settles O20: `noop` ends quietly with the next word's address as next pc. -/
theorem noopOnlyAdvancesPc : Obligations.NoopOnlyAdvancesPc := fun _ => exec_of_ending_quiet rfl

/-- A Word is 0 when its whole 16-bit natural is. -/
theorem word_toNat_eq_zero_iff {w : Word} : w.toNat = 0 ↔ w = 0 := BitVec.toNat_inj (y := 0)

/-- How `jt` ends, its test on the natural that the whole Word is (R92). -/
theorem ending_jt (a b : Operand) (s : Plugged.State W D) :
    ending (.jt a b) s =
      .retire (if (value a s).toNat = 0 then s.pc + 3 else value b s) evNone s := by
  simp only [ending, jtEnding, ite_not, word_toNat_eq_zero_iff]

/-- How `jf` ends, its test on the natural that the whole Word is (R93). -/
theorem ending_jf (a b : Operand) (s : Plugged.State W D) :
    ending (.jf a b) s =
      .retire (if (value a s).toNat = 0 then value b s else s.pc + 3) evNone s := by
  simp only [ending, jfEnding, word_toNat_eq_zero_iff]

/-- Settles O16: taken or not, `jt` ends quietly. -/
theorem jtJumpsOnNonZero : Obligations.JtJumpsOnNonZero :=
  fun a b s => exec_of_ending_quiet (ending_jt a b s)

/-- Settles O17: taken or not, `jf` ends quietly. -/
theorem jfJumpsOnZero : Obligations.JfJumpsOnZero :=
  fun a b s => exec_of_ending_quiet (ending_jf a b s)

/-! ## Call and return -/

/-- A stack is full when it holds exactly `STACK_DEPTH` entries (R21). -/
theorem Plugged.State.stackFull_iff (s : Plugged.State W D) :
    s.stackFull = true ↔ s.params.stackDepth = some s.stack.length :=
  decide_eq_true_iff

/-- On a full stack `call` overflows (R94). -/
theorem ending_call_of_full (a : Operand) {s : Plugged.State W D}
    (h : s.params.stackDepth = some s.stack.length) :
    ending (.call a) s = .fault (.stackOverflow s.pc) :=
  if_pos (s.stackFull_iff.2 h)

/-- With room on the stack `call` pushes the return address and goes to its value (R94). -/
theorem ending_call_of_room (a : Operand) {s : Plugged.State W D}
    (h : s.params.stackDepth ≠ some s.stack.length) :
    ending (.call a) s = .retire (value a s) evStk { s with stack := s.stack ++ [s.pc + 2] } :=
  if_neg (mt s.stackFull_iff.1 h)

/-- On an empty stack `ret` halts (R95). -/
theorem ending_ret_of_empty {s : Plugged.State W D} (h : s.stack = []) : ending .ret s = .halt := by
  simp only [ending, retEnding, Plugged.State.top?, h, List.getLast?_nil]

/-- On a stack with the top `w` `ret` pops `w` and goes there (R95). -/
theorem ending_ret_of_top {s : Plugged.State W D} {rest : List Word} {w : Word}
    (h : s.stack = rest ++ [w]) : ending .ret s = .retire w evStk { s with stack := rest } := by
  simp only [ending, retEnding, Plugged.State.top?, Plugged.State.dropTop, h, List.getLast?_concat,
    List.dropLast_concat]

/-- Settles O18: on a full stack `call` ends by the fault, with room by its effect on the stack. -/
theorem callPushesReturnAddress : Obligations.CallPushesReturnAddress :=
  fun a _ => ⟨fun hfull => exec_of_ending_fault (ending_call_of_full a hfull),
    fun hroom => exec_of_ending_stack (ending_call_of_room a hroom)⟩

/-- Settles O19: on an empty stack `ret` ends by halting, else by its effect on the stack. -/
theorem retPopsPcOrHalts : Obligations.RetPopsPcOrHalts :=
  fun _ => ⟨fun hempty => exec_of_ending_halt (ending_ret_of_empty hempty),
    fun _ _ htop => exec_of_ending_stack (ending_ret_of_top htop)⟩

/-! ## The target of a transfer -/

/-- Settles O21: each transfer retires with its target as next pc, which `jt` and `jf` take by their
test. -/
theorem transfersSetPcExactly : Obligations.TransfersSetPcExactly := by
  intro a b s
  refine ⟨pc_of_retired (jmpSetsPc a s), fun hne => ?jt, fun heq => ?jf,
    fun hroom => pc_of_retired ((callPushesReturnAddress a s).2 hroom),
    fun rest w htop => pc_of_retired ((retPopsPcOrHalts s).2 rest w htop)⟩
  case jt =>
    have h := pc_of_retired (jtJumpsOnNonZero a b s)
    rwa [if_neg (mt word_toNat_eq_zero_iff.1 hne)] at h
  case jf =>
    have h := pc_of_retired (jfJumpsOnZero a b s)
    rwa [if_pos (word_toNat_eq_zero_iff.2 heq)] at h

end Sys2Proof.Machine
end

section
/-! PROOF. The data-movement family (spec/42_data_movement.md). An instruction that ends by storing one
result answers what `storeResult_spec` says (`exec_of_ending_store`); an equation for each instruction
whose ending branches says which way it takes. -/

namespace Sys2Proof.Machine

variable {W D : Type}

/-- An instruction that ends by storing `v` writes it to its destination and retires (R75, R78). -/
theorem exec_of_ending_store {i : Instr} {d : Operand} {v words : Word} {s : State} (hd : d.wf = true)
    (hm : Memory.wf s.mem) (h : ending i s = storeResult d v words s) :
    ∃ t, exec i s = .next t ∧ WritesResult d v words s t := by
  rw [exec_eq, h]
  exact storeResult_spec hd v words hm

/-- No address above 32767 exists (R30, R39). -/
theorem not_addressExists {a : Word} (h : 32768 ≤ a.toNat) : ¬ addressExists a = true :=
  mt (addressExists_iff a).1 (Nat.not_lt.2 h)

/-! ## set -/

/-- Settles O22: `set` ends by storing its value. -/
theorem setCopiesValue : Obligations.SetCopiesValue := fun _ _ _ ha hm => exec_of_ending_store ha hm rfl

/-! ## push and pop -/

/-- On a full stack `push` overflows (R101). -/
theorem ending_push_of_full (a : Operand) {s : Plugged.State W D}
    (h : s.params.stackDepth = some s.stack.length) :
    ending (.push a) s = .fault (.stackOverflow s.pc) :=
  if_pos (s.stackFull_iff.2 h)

/-- With room on the stack `push` appends its value (R101). -/
theorem ending_push_of_room (a : Operand) {s : Plugged.State W D}
    (h : s.params.stackDepth ≠ some s.stack.length) :
    ending (.push a) s = .retire (s.pc + 2) evStk { s with stack := s.stack ++ [value a s] } :=
  if_neg (mt s.stackFull_iff.1 h)

/-- Settles O23: on a full stack `push` ends by the fault, with room by its effect on the stack. -/
theorem pushAppendsValue : Obligations.PushAppendsValue :=
  fun a _ => ⟨fun hfull => exec_of_ending_fault (ending_push_of_full a hfull),
    fun hroom => exec_of_ending_stack (ending_push_of_room a hroom)⟩

/-- On an empty stack `pop` underflows (R102). -/
theorem ending_pop_of_empty (a : Operand) {s : Plugged.State W D} (h : s.stack = []) :
    ending (.pop a) s = .fault (.stackUnderflow s.pc) := by
  simp only [ending, popEnding, Plugged.State.top?, h, List.getLast?_nil]

/-- On a stack with the top `w` `pop` writes `w` once the stack has lost it, and its record counts the
stack as changed (R102). -/
theorem ending_pop_of_top (a : Operand) {s : Plugged.State W D} {rest : List Word} {w : Word}
    (h : s.stack = rest ++ [w]) :
    ending (.pop a) s = writeRetire a w (s.pc + 2) (fun ev => { ev with stk := true }) s.dropTop := by
  simp only [ending, popEnding, Plugged.State.top?, h, List.getLast?_concat]

/-- Settles O24: on an empty stack `pop` ends by the fault, else by writing the top; the state it writes
in differs from its own in the stack only. -/
theorem popMovesTopOrUnderflows : Obligations.PopMovesTopOrUnderflows := by
  refine fun a s ha hm => ⟨fun hempty => exec_of_ending_fault (ending_pop_of_empty a hempty),
    fun rest w htop => ?_⟩
  obtain ⟨t, ht, hreceived, hretired, hstack, hstreams⟩ :=
    writeRetire_spec ha w (s.pc + 2) (fun ev => { ev with stk := true })
      (t := s.dropTop) hm (agree_dropTop s)
  have hrest : s.dropTop.stack = rest := by
    rw [Plugged.State.dropTop_stack, htop, List.dropLast_concat]
  rw [exec_eq, ending_pop_of_top a htop]
  exact ⟨t, ht, ⟨hreceived, hretired⟩, hstack.trans hrest, hstreams⟩

/-! ## rmem and wmem -/

/-- At an address that exists `rmem` stores the memory word there (R103). -/
theorem ending_rmem_of_lt (a : Operand) {b : Operand} {s : Plugged.State W D}
    (h : (value b s).toNat < 32768) :
    ending (.rmem a b) s = storeResult a (Memory.read s.mem (value b s).toNat) 3 s :=
  if_pos ((addressExists_iff _).2 h)

/-- At an address above 32767 `rmem` faults on the read (R103). -/
theorem ending_rmem_of_ge (a : Operand) {b : Operand} {s : Plugged.State W D}
    (h : 32768 ≤ (value b s).toNat) :
    ending (.rmem a b) s = .fault (.addressOutOfRange s.pc (value b s) .read) :=
  if_neg (not_addressExists h)

/-- Settles O25: `rmem` ends by the fault above 32767, else by storing the memory word. -/
theorem rmemReadsMemory : Obligations.RmemReadsMemory :=
  fun a _ _ ha hm => ⟨fun hge => exec_of_ending_fault (ending_rmem_of_ge a hge),
    fun hlt => exec_of_ending_store ha hm (ending_rmem_of_lt a hlt)⟩

/-- At an address that exists `wmem` stores as to that literal destination (R104). -/
theorem ending_wmem_of_lt {a : Operand} (b : Operand) {s : Plugged.State W D}
    (h : (value a s).toNat < 32768) :
    ending (.wmem a b) s = storeResult (.lit (value a s)) (value b s) 3 s :=
  if_pos ((addressExists_iff _).2 h)

/-- At an address above 32767 `wmem` faults on the write (R104). -/
theorem ending_wmem_of_ge {a : Operand} (b : Operand) {s : Plugged.State W D}
    (h : 32768 ≤ (value a s).toNat) :
    ending (.wmem a b) s = .fault (.addressOutOfRange s.pc (value a s) .write) :=
  if_neg (not_addressExists h)

/-- Settles O26: `wmem` ends by the fault above 32767, else by storing to the literal destination that its
address is, which is well formed there. -/
theorem wmemWritesMemory : Obligations.WmemWritesMemory := by
  refine fun a b s hm => ⟨fun hge => exec_of_ending_fault (ending_wmem_of_ge b hge), fun hlt => ?_⟩
  have hwf : (Operand.lit (value a s)).wf = true := decide_eq_true hlt
  obtain ⟨t, ht, ⟨⟨hread, hothers, hregs⟩, hretired⟩, hframe⟩ :=
    exec_of_ending_store hwf hm (ending_wmem_of_lt b hlt)
  exact ⟨t, ht, hread, hothers, hregs, hframe, hretired⟩

end Sys2Proof.Machine
end

section
/-! PROOF. The ALU family (spec/43_alu.md). Every instruction of it ends by storing one result
(`exec_of_ending_store`), but for `mod` by zero, which faults; an equation for an instruction whose result
the model computes on Words says which natural that Word is (R110 to R119). -/

namespace Sys2Proof.Machine

variable {W D : Type}

/-! ## Comparison -/

/-- The result of a comparison is the Word 1 or 0 by its test (R15). -/
theorem truthWord_decide (p : Prop) [Decidable p] : truthWord (decide p) = if p then 1 else 0 := by
  simp only [truthWord, decide_eq_true_eq]

/-- What `eq` stores, its test on the 16-bit naturals (R112). -/
theorem ending_eq (a b c : Operand) (s : Plugged.State W D) :
    ending (.eq a b c) s =
      storeResult a (if (value b s).toNat = (value c s).toNat then 1 else 0) 4 s := by
  simp only [ending, eqEnding, truthWord_decide, BitVec.toNat_inj]

/-- What `gt` stores, its test on the 16-bit naturals (R113). -/
theorem ending_gt (a b c : Operand) (s : Plugged.State W D) :
    ending (.gt a b c) s =
      storeResult a (if (value c s).toNat < (value b s).toNat then 1 else 0) 4 s := by
  simp only [ending, gtEnding, truthWord_decide]

/-- Settles O27: `eq` ends by storing 1 or 0 by its test. -/
theorem eqWritesEquality : Obligations.EqWritesEquality :=
  fun a b c s ha hm => exec_of_ending_store ha hm (ending_eq a b c s)

/-- Settles O28: `gt` ends by storing 1 or 0 by its test. -/
theorem gtWritesUnsignedComparison : Obligations.GtWritesUnsignedComparison :=
  fun a b c s ha hm => exec_of_ending_store ha hm (ending_gt a b c s)

/-! ## Arithmetic -/

/-- Settles O29: `add` ends by storing its sum, which the model reduces as a natural. -/
theorem addWritesSumModulo32768 : Obligations.AddWritesSumModulo32768 :=
  fun _ _ _ _ ha hm => exec_of_ending_store ha hm rfl

/-- Settles O30: `mult` ends by storing its product, which the model reduces as a natural. -/
theorem multWritesProductModulo32768 : Obligations.MultWritesProductModulo32768 :=
  fun _ _ _ _ ha hm => exec_of_ending_store ha hm rfl

/-- By a zero divisor `mod` faults (R116). -/
theorem ending_mod_of_eq_zero (a b : Operand) {c : Operand} {s : Plugged.State W D}
    (h : (value c s).toNat = 0) : ending (.mod a b c) s = .fault (.divisionByZero s.pc) :=
  if_pos (word_toNat_eq_zero_iff.1 h)

/-- By any other divisor `mod` stores the remainder (R116). -/
theorem ending_mod_of_ne_zero (a b : Operand) {c : Operand} {s : Plugged.State W D}
    (h : (value c s).toNat ≠ 0) :
    ending (.mod a b c) s =
      storeResult a (BitVec.ofNat 16 ((value b s).toNat % (value c s).toNat)) 4 s :=
  if_neg (mt word_toNat_eq_zero_iff.2 h)

/-- Settles O31: `mod` ends by the fault for a zero divisor, else by storing the remainder. -/
theorem modWritesRemainderOrFaults : Obligations.ModWritesRemainderOrFaults :=
  fun a b _ _ ha hm => ⟨fun hzero => exec_of_ending_fault (ending_mod_of_eq_zero a b hzero),
    fun hne => exec_of_ending_store ha hm (ending_mod_of_ne_zero a b hne)⟩

/-! ## Bitwise -/

/-- What `and` stores, as the and of the 16-bit naturals (R117). -/
theorem ending_and (a b c : Operand) (s : Plugged.State W D) :
    ending (.and a b c) s =
      storeResult a (BitVec.ofNat 16 ((value b s).toNat &&& (value c s).toNat)) 4 s := by
  rw [← BitVec.toNat_and, BitVec.ofNat_toNat, BitVec.setWidth_eq]
  rfl

/-- What `or` stores, as the or of the 16-bit naturals (R118). -/
theorem ending_or (a b c : Operand) (s : Plugged.State W D) :
    ending (.or a b c) s =
      storeResult a (BitVec.ofNat 16 ((value b s).toNat ||| (value c s).toNat)) 4 s := by
  rw [← BitVec.toNat_or, BitVec.ofNat_toNat, BitVec.setWidth_eq]
  rfl

/-- Inverting a Word under the mask `0x7FFF` is the 15-bit complement of its low bits, with bit 15 clear. -/
theorem xor_and_mask15 (w : Word) : (w ^^^ 0x7FFF) &&& 0x7FFF = (~~~ w.setWidth 15).setWidth 16 := by
  ext i hi
  have hmask : (0x7FFF : Word)[i] = decide (i < 15) := Nat.testBit_two_pow_sub_one 15 i
  rw [BitVec.getElem_and, BitVec.getElem_xor, hmask]
  by_cases hlow : i < 15
  · simp [hlow, BitVec.getLsbD_eq_getElem hi]
  · simp [hlow]

/-- What `not` stores, as 32767 minus the low 15 bits (R119): a 15-bit complement is a subtraction from the
largest 15-bit natural. -/
theorem ending_not (a b : Operand) (s : Plugged.State W D) :
    ending (.not a b) s = storeResult a (BitVec.ofNat 16 (32767 - (value b s).toNat % 32768)) 3 s := by
  have hnat : (~~~ (value b s).setWidth 15).toNat = 32767 - (value b s).toNat % 32768 := by
    rw [BitVec.toNat_not, BitVec.toNat_setWidth]
  rw [← hnat, BitVec.ofNat_toNat, ← xor_and_mask15]
  rfl

/-- Settles O32: `and` ends by storing its and. -/
theorem andWritesBitwiseAnd : Obligations.AndWritesBitwiseAnd :=
  fun a b c s ha hm => exec_of_ending_store ha hm (ending_and a b c s)

/-- Settles O33: `or` ends by storing its or. -/
theorem orWritesBitwiseOr : Obligations.OrWritesBitwiseOr :=
  fun a b c s ha hm => exec_of_ending_store ha hm (ending_or a b c s)

/-- Settles O34: `not` ends by storing the 15-bit complement. -/
theorem notWritesComplementOf15Bits : Obligations.NotWritesComplementOf15Bits :=
  fun a b s ha hm => exec_of_ending_store ha hm (ending_not a b s)

end Sys2Proof.Machine
end

section
/-! PROOF. The input and output family (spec/44_io.md): `out` retires from the state with its Word emitted,
`in` writes the oldest input Word from the state that has lost it. -/

namespace Sys2Proof.Machine

variable {W D : Type}

/-! ## out -/

/-- Settles O35: `out` ends quietly from the state that has emitted its value, which is the instruction's
own state but for the output stream. -/
theorem outAppendsWord : Obligations.OutAppendsWord := by
  intro a s
  rw [exec_eq]
  exact ⟨_, rfl, retire_retired (s.pc + 2) evNone s (s.emitOut (value a s)) rfl rfl rfl rfl,
    ⟨retire_regs .., fun b => by rw [retire_mem, Plugged.State.emitOut_mem]⟩, retire_stack ..,
    retire_outStream .., retire_inStream .., retire_diagStream ..⟩

/-! ## in -/

/-- The record of `in` says that the place its destination names changed, whatever the Word (R136). -/
theorem evIn_eq (a : Operand) : evIn a = { reg := isRegDest a, mem := !isRegDest a, stk := false } := by
  cases a <;> rfl

/-- With a Word `w` at the head of the input queue `in` writes `w` once the queue has lost it (R127). -/
theorem ending_input_of_cons (a : Operand) {s : Plugged.State W D} {w : Word} {ws : List Word}
    (h : s.inStream = w :: ws) :
    ending (.input a) s =
      writeRetire a w (s.pc + 2)
        (fun _ => { reg := isRegDest a, mem := !isRegDest a, stk := false }) s.dropInput := by
  simp only [ending, inputEnding, h, evIn_eq]

/-- Settles O36: `in` ends by writing the oldest Word, with the record of a change; the state it writes in
differs from its own in the input queue only. -/
theorem inputConsumesOldestWord : Obligations.InputConsumesOldestWord := by
  intro a w ws s ha hm hin
  obtain ⟨t, ht, hreceived, hretired, hstack, hout, hinput, hdiag⟩ :=
    writeRetire_spec ha w (s.pc + 2)
      (fun _ => { reg := isRegDest a, mem := !isRegDest a, stk := false })
      (t := s.dropInput) hm (agree_dropInput s)
  have hqueue : s.dropInput.inStream = ws := by
    rw [Plugged.State.dropInput_inStream, hin, List.tail_cons]
  rw [exec_eq, ending_input_of_cons a hin]
  exact ⟨t, ht, hreceived, hretired, hstack, hinput.trans hqueue, hout, hdiag⟩

end Sys2Proof.Machine
end

section
/-! PROOF. The watchdog family (spec/45_watchdog.md). Two cores that differ in nothing but the watchdog end
each step alike (`stepEnding_same`), and concluding an ending keeps them so, but for a trip
(`SameEnding.conclude_next`). A retirement's record says what its effect changed (`Effect.record`), except
at an `in`, whose record names the destination (`ending_input_record`). -/

namespace Sys2Proof.Machine

variable {W D V E : Type}

/-! ## Two cores that differ in nothing but the watchdog -/

/-- Another watchdog makes a difference in nothing else, if the two reasons differ in the diagnostic only. -/
theorem sameButWatchdog_replug {u : Plugged.State W D} {reason : Option (FaultRecord E)}
    (h : reason.map FaultRecord.erase = u.reason.map FaultRecord.erase) (w : V) (enable : Bool)
    (limit : Nat) : SameButWatchdog u (replug w reason enable limit u) :=
  ⟨rfl, rfl, h, rfl, rfl⟩

/-- Of what a run shows, a retirement changes the pc only, whatever the strategy (R78, R135). -/
theorem retire_visible (wd : WatchdogStrategy W D) (next : Word) (ev : Retirement)
    (u : Plugged.State W D) : (retire wd next ev u).visible = { u.visible with pc := next } :=
  retire_elim wd next ev u (P := fun t => t.visible = { u.visible with pc := next }) rfl
    (fun _ => rfl) (fun _ _ => rfl)

namespace SameButWatchdog

variable {s : Plugged.State W D} {s' : Plugged.State V E}

theorem haltEngine (h : SameButWatchdog s s') : SameButWatchdog s.haltEngine s'.haltEngine :=
  ⟨h.visible, rfl, h.reason, h.depth, h.policy⟩

theorem raise (h : SameButWatchdog s s') {r : FaultRecord D} {q : FaultRecord E}
    (hrq : q.erase = r.erase) : SameButWatchdog (s.raise r) (s'.raise q) :=
  ⟨h.visible, rfl, congrArg some hrq, h.depth, h.policy⟩

theorem visible_retire (h : SameButWatchdog s s') (wd : WatchdogStrategy W D)
    (vd : WatchdogStrategy V E) (next : Word) (ev : Retirement) :
    (Machine.retire vd next ev s').visible = (Machine.retire wd next ev s).visible := by
  rw [retire_visible, retire_visible, h.visible]

/-- Retirements from two such cores trip one of the two watchdogs, or lead to two such cores. -/
theorem retire (h : SameButWatchdog s s') (wd : WatchdogStrategy W D)
    (vd : WatchdogStrategy V E) (next : Word) (ev : Retirement) :
    (Machine.retire wd next ev s).tripped ∨ (Machine.retire vd next ev s').tripped ∨
      SameButWatchdog (Machine.retire wd next ev s) (Machine.retire vd next ev s') := by
  rcases retire_trip wd next ev s with htrip | ⟨heng, hrea⟩
  · exact .inl htrip
  rcases retire_trip vd next ev s' with htrip | ⟨heng', hrea'⟩
  · exact .inr (.inl htrip)
  refine .inr (.inr ⟨h.visible_retire wd vd next ev, ?engine, ?reason, ?depth, ?policy⟩)
  case engine => rw [heng, heng', h.engine]
  case reason => rw [hrea, hrea', h.reason]
  case depth => rw [retire_params, retire_params, h.depth]
  case policy => rw [retire_params, retire_params, h.policy]

end SameButWatchdog

/-- What retires, retires one effect. -/
theorem Ends.effect {d : Decoded} {s u : Plugged.State W D} {next : Word} {ev : Retirement}
    (h : Ends d s (.retire next ev u)) : Effect d s u ev := by
  cases h with
  | retire _ heffect => exact heffect

/-- The same ending, concluded in two cores that differ in nothing but the watchdog, each with its own
strategy: both have a next state, which shows the same, and differ in nothing but the watchdog unless one
of the two tripped. -/
theorem SameEnding.conclude_next {wd : WatchdogStrategy W D} {vd : WatchdogStrategy V E} {d : Decoded}
    {s t : Plugged.State W D} {s' : Plugged.State V E} {w : V} {enable : Bool} {limit : Nat}
    {e : Ending W D} {e' : Ending V E} (hsame : SameEnding (replug w s'.reason enable limit) e e')
    (hends : Ends d s e) (hs : SameButWatchdog s s') (ht : conclude wd s e = .next t) :
    ∃ t', conclude vd s' e' = .next t' ∧ t'.visible = t.visible ∧
      (t.tripped ∨ t'.tripped ∨ SameButWatchdog t t') := by
  cases hsame with
  | halt =>
    cases ht
    exact ⟨_, rfl, hs.visible, .inr (.inr hs.haltEngine)⟩
  | fault r q _ hrq =>
    cases ht
    exact ⟨_, rfl, hs.visible, .inr (.inr (hs.raise hrq))⟩
  | retire next ev u =>
    cases ht
    obtain ⟨-, -, -, hreason, -⟩ := hends.effect.frame
    have hu : SameButWatchdog u (replug w s'.reason enable limit u) :=
      sameButWatchdog_replug (hreason.symm ▸ hs.reason) w enable limit
    exact ⟨_, rfl, hu.visible_retire wd vd next ev, hu.retire wd vd next ev⟩
  | hold => cases ht

/-- Settles O59: the second core is the first with another watchdog, so its step ends the same way. -/
theorem watchdogOnlyEndsRuns : Obligations.WatchdogOnlyEndsRuns := by
  intro W D V E wd vd s t s' hs hstep
  obtain ⟨hrun, ht⟩ := stepWith_next hstep
  have hsame := stepEnding_same
    (commutes_replug s'.wd s'.reason s'.params.wdEnable s'.params.wdLimit) s
  rw [← hs.eq_replug] at hsame
  rw [stepWith_running vd (hs.engine.trans hrun)]
  exact hsame.conclude_next (stepEnding_ends s) hs ht

/-! ## The record of a retirement -/

/-- The record of what differs between the states before and after an instruction (R136). -/
def changeRecord (s t : Plugged.State W D) : Retirement :=
  { reg := decide (t.regs ≠ s.regs), mem := decide (t.mem ≠ s.mem), stk := decide (t.stack ≠ s.stack) }

/-- A retirement itself changes nothing that the record is about. -/
theorem changeRecord_retire (wd : WatchdogStrategy W D) (next : Word) (ev : Retirement)
    (s u : Plugged.State W D) : changeRecord s (retire wd next ev u) = changeRecord s u := by
  simp only [changeRecord, retire_regs, retire_mem, retire_stack]

/-- A register write leaves the register file as it is exactly when the register held that Word. -/
theorem regs_set_eq_self_iff (regs : Vector Word 8) (r : Fin 8) (v : Word) :
    regs.set r v = regs ↔ regs[r] = v := by
  constructor
  · intro h
    calc regs[r] = (regs.set r v)[r] := by rw [h]
      _ = v := Vector.getElem_set_self _
  · rintro rfl
    exact Vector.set_getElem_self _

/-- A memory write leaves the memory as it is exactly when the address held that Word. -/
theorem Memory.write_eq_self_iff {m : Memory} (hm : Memory.wf m) (a : Nat) (v : Word) :
    Memory.write m a v = m ↔ Memory.read m a = v := by
  constructor
  · intro h
    calc Memory.read m a = Memory.read (Memory.write m a v) a := by rw [h]
      _ = v := Memory.read_write_self hm a v
  · rintro rfl
    exact Memory.write_same hm a

/-- A stack that is not empty differs from the stack without its top. -/
theorem dropLast_ne_self {stack : List Word} (h : stack ≠ []) : stack.dropLast ≠ stack := by
  intro heq
  have hlen := congrArg List.length heq
  have hpos := List.length_pos_iff.2 h
  rw [List.length_dropLast] at hlen
  omega

/-- The record of a write says what it changed (R136). -/
theorem writeEv_record {d : Operand} {v : Word} {s u : Plugged.State W D} {ev : Retirement}
    (hm : Memory.wf s.mem) (h : writeEv d v s = some (u, ev)) : ev = changeRecord s u := by
  rcases writeEv_cases h with ⟨r, -, rfl, rfl⟩ | ⟨a, -, -, rfl, rfl⟩
  · simp [changeRecord, regs_set_eq_self_iff]
  · simp [changeRecord, Memory.write_eq_self_iff hm]

/-- The record of every effect but that of `in` says what it changed (R136, the spec's decision D19). -/
theorem Effect.record {d : Decoded} {s u : Plugged.State W D} {ev : Retirement} (h : Effect d s u ev)
    (hm : Memory.wf s.mem) (hd : ∀ a, d ≠ .instr (.input a)) : ev = changeRecord s u := by
  cases h with
  | none => simp [changeRecord, evNone]
  | emit => simp [changeRecord, evNone]
  | diag => simp [changeRecord, evNone]
  | push => simp [changeRecord, evStk]
  | drop hne => simp [changeRecord, evStk, dropLast_ne_self hne]
  | write hw => exact writeEv_record hm hw
  | pop hne hw =>
    obtain ⟨-, hframe, -⟩ := writeEv_frame hw
    have hstack : u.stack ≠ s.stack := hframe ▸ dropLast_ne_self hne
    rw [writeEv_record (s := s.dropTop) hm hw]
    exact congrArg (Retirement.mk _ _) (decide_eq_true hstack).symm
  | input hin => exact absurd hin (hd _)

/-- Where `in` retires, its record says that the place its destination names changed (R127). -/
theorem ending_input_record {a : Operand} {s u : Plugged.State W D} {next : Word} {ev : Retirement}
    (h : ending (.input a) s = .retire next ev u) : ev = ⟨isRegDest a, !isRegDest a, false⟩ := by
  cases hin : s.inStream with
  | nil => simp [ending, inputEnding, hin] at h
  | cons w ws =>
    rw [ending_input_of_cons a hin] at h
    rcases writeRetire_cases a w (s.pc + 2) (fun _ => ⟨isRegDest a, !isRegDest a, false⟩)
      s.dropInput with hfault | ⟨_, _, -, hretire⟩
    · rw [hfault] at h
      cases h
    · rw [hretire] at h
      cases h
      rfl

/-! ## The strategy that is plugged in -/

/-- Settles O58, by the way the step ends: a retirement consults the strategy (`retire_consulted`) with the
record of its effect. -/
theorem strategyIsConsultedOncePerRetirement : Obligations.StrategyIsConsultedOncePerRetirement := by
  intro W D wd s t hm hstep
  obtain ⟨-, ht⟩ := stepWith_next hstep
  have hends := stepEnding_ends s
  generalize hending : stepEnding s = e at hends ht
  cases hends with
  | halt hd =>
    cases ht
    exact .inl ⟨rfl, hd⟩
  | fault r hr =>
    cases ht
    exact .inr (.inl ⟨r, rfl, hr⟩)
  | @retire u ev next heffect _ =>
    cases ht
    obtain ⟨-, hwd, hengine, hreason, hparams⟩ := heffect.frame
    refine .inr (.inr ⟨ev, retire_consulted wd next ev s u hwd hengine hreason hparams,
      (retire_params ..).trans hparams, fun a hfetch => ?input, fun hother => ?other⟩)
    case input =>
      rw [stepEnding, hfetch] at hending
      exact ending_input_record hending
    case other =>
      exact (heffect.record hm hother).trans (changeRecord_retire wd next ev s u).symm
  | hold => cases ht

/-- Settles O57: a terminal state has no step in either, and a running engine's step is the same ending,
which `finish` concludes with the default strategy. -/
theorem stepPlugsInDefaultStrategy : Obligations.StepPlugsInDefaultStrategy := by
  intro s
  cases hengine : s.engine with
  | running => rw [step_running hengine, stepWith_running _ hengine, finish]
  | halted => simp only [step, stepWith, noStep, hengine]
  | faulted => simp only [step, stepWith, noStep, hengine]

end Sys2Proof.Machine
end

section
/-! PROOF. The encoding as a round trip (spec/30_encoding.md R50 to R61): the operand words of an
instruction are read as its operands (`withOperands_of_prefix`), operand words that complete a format are
those of what it gives (`withOperands_instr`), and where the words end early the first missing one is
named (`decode_take_ranOut`). -/

namespace Sys2Proof

/-! ## Decoding an encoding -/

/-- The words of well-formed operands are read as these operands, and reading goes on behind them (R61). -/
theorem withOperands_of_prefix {ws : List Word} (k n : Nat) (os : List Operand)
    (f : List Operand → Decoded) (hos : ∀ o ∈ os, o.wf = true)
    (hws : os.map encodeOperand <+: ws.drop k) :
    withOperands ws k (os.length + n) f =
      withOperands ws (k + os.length) n fun rest => f (os ++ rest) := by
  induction os generalizing k f with
  | nil => rw [List.length_nil, Nat.zero_add]; rfl
  | cons o os ih =>
    obtain ⟨ho, hos⟩ := List.forall_mem_cons.1 hos
    obtain ⟨rest, hrest⟩ := hws
    have hk : ws[k]? = some (encodeOperand o) := by
      rw [← Nat.add_zero k, ← List.getElem?_drop, ← hrest]; rfl
    have hnext : os.map encodeOperand <+: ws.drop (k + 1) :=
      ⟨rest, by rw [← List.tail_drop, ← hrest]; rfl⟩
    rw [List.length_cons, Nat.add_right_comm, withOperands, withOperand_encode hk ho,
      ih (k + 1) _ hos hnext, Nat.add_right_comm]
    rfl

/-- Settles O1: the opcode word gives the instruction's format, its operand words the operands, and these
complete the format to the instruction. -/
theorem decodeOfEncodeIsIdentity : Obligations.DecodeOfEncodeIsIdentity := by
  intro i rest hi
  obtain ⟨f, hf, harity, hcomplete⟩ := opcodeMap_opcodeOf_completes i
  rw [encode, List.cons_append, decode_eq_withOperands hf, harity]
  calc withOperands _ 1 (i.operands.length + 0) f.complete
      = f.complete (i.operands ++ []) :=
        withOperands_of_prefix 1 0 _ _ (List.all_eq_true.1 hi) (List.prefix_append _ rest)
    _ = .instr i := by rw [List.append_nil, hcomplete]

/-! ## What decodes is an encoding -/

/-- An instruction comes out of `n` operand words only when they are the words of well-formed
operands. -/
theorem withOperands_instr {ws : List Word} {i : Instr} (n k : Nat) {f : List Operand → Decoded}
    (h : withOperands ws k n f = .instr i) :
    ∃ os, (∀ o ∈ os, o.wf = true) ∧ os.map encodeOperand <+: ws.drop k ∧ f os = .instr i := by
  induction n generalizing k f with
  | zero => exact ⟨[], by simp, List.nil_prefix, h⟩
  | succ n ih =>
    obtain ⟨o, hk, ho, h⟩ := withOperand_instr h
    obtain ⟨os, hos, hpre, hf⟩ := ih (k + 1) h
    obtain ⟨hlt, hget⟩ := List.getElem?_eq_some_iff.1 hk
    refine ⟨o :: os, List.forall_mem_cons.2 ⟨ho, hos⟩, ?_, hf⟩
    rw [List.drop_eq_getElem_cons hlt, hget, List.map_cons]
    exact (List.prefix_cons_inj _).2 hpre

/-- The instruction that a format completes to has exactly the operands it was completed with (R50). -/
def Format.keepsOperands : Format → Prop
  | .f0 j => j.operands = []
  | .f1 j => ∀ a, (j a).operands = [a]
  | .f2 j => ∀ a b, (j a b).operands = [a, b]
  | .f3 j => ∀ a b c, (j a b c).operands = [a, b, c]

/-- Every format of the opcode map does (R55). -/
theorem opcodeMap_keepsOperands {n : Nat} {f : Format} (h : opcodeMap n = some f) :
    f.keepsOperands := by
  unfold opcodeMap at h
  split at h <;> cases h <;> simp [Format.keepsOperands, Instr.operands]

/-- What a format completes to is built by it, with those operands. -/
theorem Format.complete_instr {f : Format} {os : List Operand} {i : Instr} (hf : f.keepsOperands)
    (h : f.complete os = .instr i) : f.builds i ∧ i.operands = os := by
  unfold Format.complete at h
  split at h <;> cases h
  · exact ⟨rfl, hf⟩
  · exact ⟨⟨_, rfl⟩, hf _⟩
  · exact ⟨⟨_, _, rfl⟩, hf _ _⟩
  · exact ⟨⟨_, _, _, rfl⟩, hf _ _ _⟩

/-- Settles O2: the opcode is the one of the format that was completed, and the operand words are the
operands'. -/
theorem decodedWordsAreTheEncoding : Obligations.DecodedWordsAreTheEncoding := by
  intro ws i h
  cases ws with
  | nil => cases h
  | cons op rest =>
    cases hf : opcodeMap op.toNat with
    | none => rw [decode_of_opcodeMap_none hf] at h; cases h
    | some f =>
      rw [decode_eq_withOperands hf] at h
      obtain ⟨os, hos, hpre, hcomplete⟩ := withOperands_instr _ _ h
      obtain ⟨hbuilds, rfl⟩ := Format.complete_instr (opcodeMap_keepsOperands hf) hcomplete
      refine ⟨List.all_eq_true.2 hos, ?_⟩
      rw [encode, opcodeOf_builds hf hbuilds]
      exact (List.prefix_cons_inj op).2 hpre

/-- Settles O3: each is an encoding that the decoder is run on. -/
theorem specExampleWordsDecode : Obligations.SpecExampleWordsDecode :=
  ⟨rfl, rfl, rfl, rfl, rfl, rfl, rfl⟩

/-! ## Words that end too early -/

/-- The first `k` words of an instruction alone decode to the missing word number `k` (R61, R72). -/
theorem decode_take_ranOut {i : Instr} {k : Nat} (hi : i.wf = true) (hk : 1 ≤ k) (hki : k ≤ i.arity) :
    decode ((encode i).take k) = .ranOut k := by
  obtain ⟨j, rfl⟩ : ∃ j, k = j + 1 := ⟨k - 1, by omega⟩
  obtain ⟨f, hf, harity, -⟩ := opcodeMap_opcodeOf_completes i
  obtain ⟨n, hn⟩ : ∃ n, i.arity = j + (n + 1) := ⟨i.arity - (j + 1), by omega⟩
  have hlen : (i.operands.take j).length = j := List.length_take_of_le (Nat.le_of_succ_le hki)
  have hwf : ∀ o ∈ i.operands.take j, o.wf = true := fun o ho =>
    List.all_eq_true.1 hi o (List.mem_of_mem_take ho)
  have hread := withOperands_of_prefix (ws := opcodeOf i :: (i.operands.take j).map encodeOperand)
    1 (n + 1) (i.operands.take j) f.complete hwf (List.prefix_refl _)
  have hend : (opcodeOf i :: (i.operands.take j).map encodeOperand)[1 + j]? = none :=
    List.getElem?_eq_none (by rw [List.length_cons, List.length_map, hlen, Nat.add_comm])
  rw [hlen] at hread
  rw [encode, List.take_succ_cons, ← List.map_take, decode_eq_withOperands hf, harity, hn, hread,
    withOperands, withOperand, hend, Nat.add_comm]

end Sys2Proof
end

section
/-! PROOF. The step and its operands (spec/40_step_and_operands.md): a running engine executes the
instruction whose words stand at the pc (`step_of_fetch_instr`), faults where one of its words lies beyond
memory, and does with an undefined opcode what the policy says; a terminal state has no step. -/

namespace Sys2Proof.Machine

variable {W D : Type}

/-! ## Operand values -/

/-- Settles O6, by the class of the operand: a register's word names no other register. -/
theorem operandValueResolvedOnce : Obligations.OperandValueResolvedOnce := by
  intro w o s h
  obtain ⟨hwf, rfl⟩ := decodeOperand_some h
  cases o with
  | lit v =>
    refine ⟨fun _ => rfl, fun r hr => ?_⟩
    have hv : v.toNat ≤ 32767 := Operand.wf_lit.1 hwf
    have hr : v.toNat = 32768 + r.val := hr
    omega
  | reg q =>
    have hq : (encodeOperand (.reg q)).toNat = 32768 + q.val := encodeOperand_reg_eq_iff.1 rfl
    refine ⟨fun hle => by omega, fun r hr => ?_⟩
    have hqr : q = r := Fin.ext (by omega)
    rw [value_reg, hqr]

/-! ## Running the instruction at the pc -/

/-- No instruction is longer than the words a fetch reads (R50). -/
theorem encode_length_le_maxInstrWords (i : Instr) : (encode i).length ≤ maxInstrWords := by
  have harity := i.arity_le_three
  rw [Instr.arity] at harity
  rw [encode, List.length_cons, List.length_map, maxInstrWords]
  omega

/-- A running engine that fetches an instruction executes it (R70). -/
theorem step_of_fetch_instr {s : State} {i : Instr} (hrun : s.engine = .running)
    (hfetch : fetch s = .instr i) : step s = exec i s := by
  rw [step_running hrun, stepEnding, hfetch, exec_eq]

/-- Settles O7: the words that stand at the pc are fetched, and decode to their instruction. -/
theorem stepRunsDecodedInstruction : Obligations.StepRunsDecodedInstruction := by
  intro i s hi hrun hstands
  obtain ⟨rest, hwords⟩ := wordsAt_of_stands hstands (encode_length_le_maxInstrWords i)
  refine step_of_fetch_instr hrun ?_
  rw [fetch, hwords, decodeOfEncodeIsIdentity i rest hi]

/-- Settles O9: the words that stand at the pc are all that is fetched, and the first one missing is at
32768. -/
theorem operandFetchBeyondMemoryFaults : Obligations.OperandFetchBeyondMemoryFaults := by
  intro i k s hi hrun hk hki hstands hend
  have hlen : ((encode i).take k).length = k := by
    rw [List.length_take_of_le]
    rw [encode, List.length_cons, List.length_map]
    exact Nat.le_succ_of_le hki
  have hwords : wordsAt s.mem s.pc.toNat maxInstrWords = (encode i).take k :=
    wordsAt_at_end hstands ((List.length_take_le' _ _).trans (encode_length_le_maxInstrWords i))
      (hlen.symm ▸ hend)
  have hfetch : fetch s = .ranOut k := by rw [fetch, hwords, decode_take_ranOut hi hk hki]
  have haddr : wordAddress k s = 32768 := by
    apply BitVec.eq_of_toNat_eq
    rw [wordAddress, BitVec.toNat_add, BitVec.toNat_ofNat, Nat.add_mod_mod, hend]
    rfl
  have hstep := step_ranOut hrun hfetch
  rw [haddr] at hstep
  exact ⟨_, hstep, rfl⟩

/-! ## Undefined opcodes -/

/-- An undefined opcode word at the pc is what is fetched, and the step is what the policy says of it
(R71, R79). -/
theorem step_undefined {s : State} (hrun : s.engine = .running) (hpc : s.pc.toNat < 32768)
    (hword : 22 ≤ (Memory.read s.mem s.pc.toNat).toNat) :
    step s = finish s (undefinedOpcode (Memory.read s.mem s.pc.toNat) s) := by
  have hfetch : fetch s = .undefined (Memory.read s.mem s.pc.toNat) := by
    rw [fetch, maxInstrWords, wordsAt, if_pos hpc]
    exact (undefinedOpcodeWords _ _).2 hword
  rw [step_running hrun, stepEnding, hfetch]

/-- Settles O12: the skip retires quietly from the state that has emitted the event. -/
theorem undefinedOpcodeIsLoggedAndSkipped : Obligations.UndefinedOpcodeIsLoggedAndSkipped := by
  intro s hrun hpc hpolicy hword
  rw [step_undefined hrun hpc hword, undefinedOpcode, hpolicy]
  exact ⟨_, rfl, retire_retired (s.pc + 1) evNone s _ rfl rfl rfl rfl,
    ⟨retire_regs .., fun a => by rw [retire_mem, Plugged.State.emitDiag_mem]⟩, retire_stack ..,
    retire_outStream .., retire_inStream .., retire_diagStream ..⟩

/-- Settles O13: the other policy's ending is the fault. -/
theorem undefinedOpcodeFaultsUnderFaultPolicy : Obligations.UndefinedOpcodeFaultsUnderFaultPolicy := by
  intro s hrun hpc hpolicy hword
  rw [step_undefined hrun hpc hword, undefinedOpcode, hpolicy]
  exact ⟨_, rfl, rfl⟩

/-! ## Terminal states -/

/-- Settles O49: the step asks for the engine state first. -/
theorem terminalStatesHaveNoStep : Obligations.TerminalStatesHaveNoStep :=
  fun _ => ⟨fun h => by simp only [step, noStep, h], fun h => by simp only [step, noStep, h]⟩

/-! ## A stored Word is fetched -/

/-- Settles O42: the words from an address that exists begin with the one it reads as, which `wmem` has
stored there. -/
theorem storedWordIsFetched : Obligations.StoredWordIsFetched := by
  intro a b s n hm haddr
  obtain ⟨t, ht, hread, -⟩ := (wmemWritesMemory a b s hm).2 haddr
  exact ⟨t, _, ht, by rw [wordsAt, if_pos haddr, hread]⟩

/-! ## The hold of `in` -/

/-- With an empty input queue `in` holds (R128). -/
theorem ending_input_of_nil (a : Operand) {s : Plugged.State W D} (h : s.inStream = []) :
    ending (.input a) s = .hold := by
  simp only [ending, inputEnding, h]

/-- The host's supply of input is nothing that a destination's receipt speaks of (R25). -/
theorem agree_hostSupply (ws : List Word) (s : Plugged.State W D) : Agree s (s.hostSupply ws) :=
  ⟨rfl, rfl, rfl, rfl, rfl, rfl⟩

/-- Settles O37: the supply changes neither what is fetched nor what the destination holds, and then `in`
consumes the first supplied Word. -/
theorem holdIsLiftedByHostInput : Obligations.HoldIsLiftedByHostInput := by
  intro a s hrun hfetch hm hempty
  refine ⟨?hold, fun w ws => ?lifted⟩
  case hold =>
    rw [step_of_fetch_instr hrun hfetch, exec_eq, ending_input_of_nil a hempty]
    rfl
  case lifted =>
    have ha : a.wf = true :=
      List.all_eq_true.1 (decodedWordsAreTheEncoding _ _ hfetch).1 a (List.mem_singleton.2 rfl)
    have hqueue : (s.hostSupply (w :: ws)).inStream = w :: ws := by
      rw [Plugged.State.hostSupply_inStream, hempty, List.nil_append]
    have hstep : step (s.hostSupply (w :: ws)) = exec (.input a) (s.hostSupply (w :: ws)) :=
      step_of_fetch_instr hrun hfetch
    obtain ⟨t, ht, hreceived, ⟨hpc, -⟩, -, hin, -⟩ :=
      inputConsumesOldestWord a w ws (s.hostSupply (w :: ws)) ha hm hqueue
    exact ⟨t, hstep.trans ht, received_agree (agree_hostSupply _ s) hreceived, hpc, hin⟩

end Sys2Proof.Machine
end

section
/-! PROOF. The launch (spec/20_memory.md R34, spec/70_reset_and_hazards.md R180, R181): which images are
refused, and the state that an accepted one gives. -/

namespace Sys2Proof.Machine

/-! ## Refused images -/

/-- An image of an odd number of bytes is no list of Words (R34). -/
theorem imageWords_of_odd (n : Nat) (bytes : List Byte) (h : bytes.length = 2 * n + 1) :
    imageWords bytes = none := by
  induction n generalizing bytes with
  | zero =>
    obtain ⟨b, rfl⟩ := List.length_eq_one_iff.1 h
    rfl
  | succ n ih =>
    match bytes, h with
    | lo :: hi :: rest, h =>
      have hrest : rest.length = 2 * n + 1 := by simp only [List.length_cons] at h; omega
      rw [imageWords, ih rest hrest]
      rfl

/-- Settles O44: an odd image has no Words, a longer one has more of them than memory has room for. -/
theorem badImageIsRefused : Obligations.BadImageIsRefused := by
  intro p fill bytes queued hbad
  rcases Nat.even_or_odd' bytes.length with ⟨n, heven | hodd⟩
  · have hlen : ¬ ((List.range n).map (imageWord bytes)).length ≤ Config.memWords := by
      rw [List.length_map, List.length_range, Config.memWords]
      omega
    simp only [launch, launchWith, imageWords_eq_map n bytes heven, if_neg hlen]
  · simp only [launch, launchWith, imageWords_of_odd n bytes hodd]

/-! ## Accepted images -/

/-- A launch that is not refused gives the launch state of Words that fit in memory (R180). -/
theorem launch_next {p : Params} {fill : Nat → Word} {bytes : List Byte} {queued : List Word}
    {t : State} (h : launch p fill bytes queued = .next t) :
    ∃ ws, ws.length ≤ Config.memWords ∧ t = launchState p fill ws queued := by
  unfold launch launchWith at h
  split at h
  · cases h
  · next ws _ =>
    split at h
    · next hlen => cases h; exact ⟨ws, hlen, rfl⟩
    · cases h

/-- A launch state meets the invariant. -/
theorem launchState_invariant {p : Params} (hp : 1 ≤ p.wdLimit) (fill : Nat → Word) {ws : List Word}
    (queued : List Word) (hlen : ws.length ≤ Config.memWords) :
    Invariant (launchState p fill ws queued) where
  memWf := launchMemory_wf fill ws hlen
  limitPos := hp
  runBound := Nat.zero_le _
  runBelow _ := hp
  reasonIff := ⟨nofun, nofun⟩
  depth _ _ := Nat.zero_le _
  faultPc := nofun
  tripSig := nofun

/-- Settles O45: the launch state has each of these values. -/
theorem launchResetsEverythingElse : Obligations.LaunchResetsEverythingElse := by
  intro p fill bytes queued t hp ht
  obtain ⟨ws, hlen, rfl⟩ := launch_next ht
  have hregs : ∀ r : Fin 8, (launchState p fill ws queued).regs[r] = 0 :=
    fun r => Vector.getElem_replicate r.isLt
  exact ⟨hregs, rfl, rfl, rfl, rfl, rfl, rfl, rfl, rfl, rfl, rfl,
    launchState_invariant hp fill queued hlen⟩

/-! ## Reset -/

/-- Settles O46: the empty image lists no Word, and its memory no cell. -/
theorem resetIsTheEmptyLaunch : Obligations.ResetIsTheEmptyLaunch := by
  have hlaunch := launch_of_imageWords Params.default (fun _ => 0) [] (bytes := []) (ws := []) rfl
    (Nat.zero_le _)
  rw [launchState, launchStateWith, launchMemory_default] at hlaunch
  exact hlaunch

/-- Settles O47: reset is a launch state. -/
theorem resetMeetsInvariant : Obligations.ResetMeetsInvariant := by
  obtain ⟨ws, hlen, hreset⟩ := launch_next resetIsTheEmptyLaunch
  rw [Obligations.ResetMeetsInvariant, hreset]
  exact launchState_invariant (by decide) _ _ hlen

end Sys2Proof.Machine
end

section
/-! PROOF. What every step of the machine keeps and what it can change. A step halts, raises a fault or
retires one effect (`step_cases`); each claim is then a fact about these three, of which only an effect
needs a case split. -/

namespace Sys2Proof.Machine

variable {W D : Type}

/-- A step halts, raises a fault at its pc, or retires an effect of what it fetched. -/
theorem step_cases {s t : State} (h : step s = .next t) :
    (t = s.haltEngine ∧ (fetch s = .instr .halt ∨ (fetch s = .instr .ret ∧ s.stack = []))) ∨
    (∃ r, r.pc? = some s.pc ∧ t = s.raise r) ∨
    ∃ u ev next, Effect (fetch s) s u ev ∧
      t = retire (defaultWatchdog s.params.wdLimit) next ev u ∧
      ∀ i, fetch s = .instr i → setsPc i = false → next = s.pc + BitVec.ofNat 16 (1 + i.arity) :=
  (stepEnding_ends s).cases_next (step_next h).2

/-- An instruction that retires an effect retires as claims say it (R78). -/
theorem Effect.retired {d : Decoded} {s u : State} {ev : Retirement} (h : Effect d s u ev)
    (next : Word) :
    Retired next ev.reg ev.mem ev.stk s (Machine.retire (defaultWatchdog s.params.wdLimit) next ev u) := by
  obtain ⟨-, hwd, hengine, hreason, hparams⟩ := h.frame
  exact retire_retired next ev s u hwd hengine hreason hparams

/-- A retirement trips the watchdog, which makes the engine Faulted, or leaves the engine state and the
reason (R141). -/
theorem Effect.engine_retire {d : Decoded} {s u : Plugged.State W D} {ev : Retirement}
    (h : Effect d s u ev) (wd : WatchdogStrategy W D) (next : Word) :
    ((Machine.retire wd next ev u).engine = .faulted ∧ (Machine.retire wd next ev u).tripped) ∨
      ((Machine.retire wd next ev u).engine = s.engine ∧
        (Machine.retire wd next ev u).reason = s.reason) := by
  obtain ⟨-, -, hengine, hreason, -⟩ := h.frame
  rw [← hengine, ← hreason]
  exact retire_elim wd next ev u
    (P := fun t => (t.engine = .faulted ∧ t.tripped) ∨ (t.engine = u.engine ∧ t.reason = u.reason))
    (.inr ⟨rfl, rfl⟩) (fun _ => .inr ⟨rfl, rfl⟩) (fun _ d => .inl ⟨rfl, d, rfl⟩)

/-- A fault that names its instruction's address is no watchdog trip (R150). -/
theorem not_tripped_raise {s : Plugged.State W D} {r : FaultRecord D} {p : Word}
    (hr : r.pc? = some p) : ¬ (s.raise r).tripped := by
  rintro ⟨diagnostic, h⟩
  cases h
  cases hr

/-! ## The parameters -/

/-- Settles O54: neither a halt nor a fault nor a retirement writes the parameters. -/
theorem noStepChangesParameters : Obligations.NoStepChangesParameters := by
  intro s t h
  rcases step_cases h with ⟨rfl, -⟩ | ⟨r, -, rfl⟩ | ⟨u, ev, next, heffect, rfl, -⟩
  · rfl
  · rfl
  · exact (heffect.retired next).2.1

/-! ## The invariant -/

/-- The reason is empty while the engine is not Faulted (R17). -/
theorem Invariant.reason_eq_none {s : State} (h : Invariant s) (hs : s.engine ≠ .faulted) :
    s.reason = none :=
  Option.not_isSome_iff_eq_none.1 fun hsome => hs (h.reasonIff.1 hsome)

/-- Halting keeps the invariant. -/
theorem Invariant.haltEngine {s : State} (h : Invariant s) (hrun : s.engine = .running) :
    Invariant s.haltEngine := by
  have hreason : s.haltEngine.reason = none := h.reason_eq_none (by rw [hrun]; decide)
  exact { h with
    runBelow := nofun
    reasonIff := by rw [hreason]; exact ⟨nofun, nofun⟩ }

/-- Raising a fault at the pc keeps the invariant. -/
theorem Invariant.raise {s : State} (h : Invariant s) {r : FaultRecord Signature}
    (hr : r.pc? = some s.pc) : Invariant (s.raise r) where
  memWf := h.memWf
  limitPos := h.limitPos
  runBound := h.runBound
  runBelow := nofun
  reasonIff := ⟨fun _ => rfl, fun _ => rfl⟩
  depth := h.depth
  faultPc q p hq hp := by
    cases hq
    exact Option.some.inj (hp.symm.trans hr)
  tripSig sig hsig := absurd ⟨sig, hsig⟩ (not_tripped_raise hr)

/-- Where the run counter stands below its limit, a sample takes it to the limit and trips, or leaves it
below and trips nothing (R140, R141). -/
theorem Sampled.trip_or_below {reg mem stk : Bool} {s t : State} (h : Sampled reg mem stk s t)
    (hbelow : s.wdRun < s.params.wdLimit) :
    (t.wdRun = s.params.wdLimit ∧ t.engine = .faulted ∧ t.reason = some (.watchdogTripped t.wdSig)) ∨
      (t.wdRun < s.params.wdLimit ∧ t.engine = s.engine ∧ t.reason = s.reason) := by
  unfold Sampled at h
  split at h
  · obtain ⟨-, -, -, hcount, htrip⟩ := h
    have hle : t.wdRun ≤ s.wdRun + 1 := by
      rw [hcount]
      split
      · exact Nat.zero_le _
      · exact Nat.le_refl _
    split at htrip
    · next hlimit => exact .inl ⟨by omega, htrip⟩
    · next hlimit => exact .inr ⟨Nat.lt_of_not_le hlimit, htrip⟩
  · obtain ⟨-, hcount, hsame⟩ := h
    exact .inr ⟨hcount ▸ hbelow, hsame⟩

/-- Retiring an effect keeps the invariant. -/
theorem Invariant.retire {d : Decoded} {s u : State} {ev : Retirement} (h : Invariant s)
    (hrun : s.engine = .running) (heffect : Effect d s u ev) (next : Word) :
    Invariant (Machine.retire (defaultWatchdog s.params.wdLimit) next ev u) := by
  obtain ⟨-, hparams, hsampled⟩ := heffect.retired next
  have hmem : Memory.wf (Machine.retire (defaultWatchdog s.params.wdLimit) next ev u).mem := by
    rw [retire_mem]; exact heffect.memWf h.memWf
  have hdepth := heffect.depth h.depth
  rw [← retire_params (defaultWatchdog s.params.wdLimit) next ev u,
    ← retire_stack (defaultWatchdog s.params.wdLimit) next ev u] at hdepth
  generalize Machine.retire (defaultWatchdog s.params.wdLimit) next ev u = t at *
  have hreason := h.reason_eq_none (by rw [hrun]; decide)
  have hlimit : 1 ≤ t.params.wdLimit := hparams ▸ h.limitPos
  rcases hsampled.trip_or_below (h.runBelow hrun) with ⟨hcount, hengine, htrip⟩ | ⟨hcount, hengine, hsame⟩
  · rw [← hparams] at hcount
    exact {
      memWf := hmem
      limitPos := hlimit
      runBound := hcount.le
      runBelow := by rw [hengine]; exact nofun
      reasonIff := by rw [hengine, htrip]; exact ⟨fun _ => rfl, fun _ => rfl⟩
      depth := hdepth
      faultPc := by rw [htrip]; rintro _ p ⟨⟩ ⟨⟩
      tripSig := by rw [htrip]; rintro _ ⟨⟩; exact ⟨rfl, hcount⟩ }
  · rw [hreason] at hsame
    rw [← hparams] at hcount
    exact {
      memWf := hmem
      limitPos := hlimit
      runBound := hcount.le
      runBelow := fun _ => hcount
      reasonIff := by rw [hengine, hrun, hsame]; exact ⟨nofun, nofun⟩
      depth := hdepth
      faultPc := by rw [hsame]; exact nofun
      tripSig := by rw [hsame]; exact nofun }

/-- Settles O48, for each of the three things a step can do. -/
theorem stepKeepsInvariant : Obligations.StepKeepsInvariant := by
  intro s t h hstep
  obtain ⟨hrun, -⟩ := step_next hstep
  rcases step_cases hstep with ⟨rfl, -⟩ | ⟨r, hr, rfl⟩ | ⟨u, ev, next, heffect, rfl, -⟩
  · exact h.haltEngine hrun
  · exact h.raise hr
  · exact h.retire hrun heffect next

/-! ## Progress, halts and faults -/

/-- Settles O50: every ending but the hold is concluded with a next state. -/
theorem runningEngineStepsOrHolds : Obligations.RunningEngineStepsOrHolds := by
  intro s hrun
  have hends := stepEnding_ends s
  rw [step_running hrun]
  generalize stepEnding s = e at hends
  cases hends with
  | halt => exact .inl ⟨_, rfl⟩
  | fault => exact .inl ⟨_, rfl⟩
  | retire => exact .inl ⟨_, rfl⟩
  | hold a hfetch hin => exact .inr ⟨a, hfetch, hin, rfl⟩

/-- Settles O51: a fault and a trip make the engine Faulted, any other retirement leaves it Running. -/
theorem haltedOnlyByHaltOrEmptyRet : Obligations.HaltedOnlyByHaltOrEmptyRet := by
  intro s t h hhalted
  obtain ⟨hrun, -⟩ := step_next h
  rcases step_cases h with ⟨-, hfetch⟩ | ⟨r, -, rfl⟩ | ⟨u, ev, next, heffect, rfl, -⟩
  · exact hfetch
  · cases hhalted
  · rcases heffect.engine_retire (defaultWatchdog s.params.wdLimit) next with ⟨hfaulted, -⟩ | ⟨hsame, -⟩
    · cases hhalted.symm.trans hfaulted
    · cases hhalted.symm.trans (hsame.trans hrun)

/-- Settles O52: a retirement makes the engine Faulted only by a trip. -/
theorem faultsArePrecise : Obligations.FaultsArePrecise := by
  intro s t h hfaulted htrip
  obtain ⟨hrun, -⟩ := step_next h
  rcases step_cases h with ⟨rfl, -⟩ | ⟨r, hr, rfl⟩ | ⟨u, ev, next, heffect, rfl, -⟩
  · cases hfaulted
  · exact ⟨r, rfl, hr⟩
  · rcases heffect.engine_retire (defaultWatchdog s.params.wdLimit) next with ⟨-, htripped⟩ | ⟨hsame, -⟩
    · exact absurd htripped htrip
    · cases hfaulted.symm.trans (hsame.trans hrun)

/-! ## The default advance -/

/-- A fetched instruction lies in memory, all its words (R71, R72). -/
theorem pc_add_length_le_of_fetch_instr {s : Plugged.State W D} {i : Instr}
    (h : fetch s = .instr i) : s.pc.toNat + 1 + i.arity ≤ 32768 := by
  have hlen := (decodedWordsAreTheEncoding _ _ h).2.length_le
  rw [wordsAt_length, encode, List.length_cons, List.length_map, Config.memWords] at hlen
  have harity : i.operands.length = i.arity := rfl
  omega

/-- Settles O53: the instruction's last word lies in memory, so the sum does not wrap. -/
theorem defaultAdvanceIsOnePlusArity : Obligations.DefaultAdvanceIsOnePlusArity := by
  intro i s t hfetch hi h htrip
  rcases step_cases h with ⟨-, hhalt | ⟨hret, -⟩⟩ | ⟨r, hr, rfl⟩ | ⟨u, ev, next, heffect, rfl, hnext⟩
  · cases hfetch.symm.trans hhalt
    cases hi
  · cases hfetch.symm.trans hret
    cases hi
  · exact absurd (htrip rfl) (not_tripped_raise hr)
  · have hle := pc_add_length_le_of_fetch_instr hfetch
    rw [retire_pc, hnext i hfetch hi, BitVec.toNat_add, BitVec.toNat_ofNat, Nat.add_mod_mod]
    omega

/-! ## The streams -/

/-- Only `in` removes from the input queue, its oldest Word (R25). -/
theorem Effect.inStream {d : Decoded} {s u : Plugged.State W D} {ev : Retirement}
    (h : Effect d s u ev) :
    u.inStream = s.inStream ∨ ∃ a w, d = .instr (.input a) ∧ s.inStream = w :: u.inStream := by
  cases h with
  | write hw =>
    obtain ⟨-, -, -, hin, -⟩ := writeEv_frame hw
    exact .inl hin
  | pop _ hw =>
    obtain ⟨-, -, -, hin, -⟩ := writeEv_frame hw
    exact .inl hin
  | @input o w ws _ _ hd hs hw =>
    obtain ⟨-, -, -, hin, -⟩ := writeEv_frame hw
    rw [Plugged.State.dropInput_inStream, hs, List.tail_cons] at hin
    exact .inr ⟨o, w, hd, hin ▸ hs⟩
  | _ => exact .inl rfl

/-- Only `out` appends to the output stream, its value (R126). -/
theorem Effect.outStream {d : Decoded} {s u : Plugged.State W D} {ev : Retirement}
    (h : Effect d s u ev) :
    u.outStream = s.outStream ∨
      ∃ a, d = .instr (.out a) ∧ u.outStream = s.outStream ++ [value a s] := by
  cases h with
  | emit a hd => exact .inr ⟨a, hd, rfl⟩
  | write hw =>
    obtain ⟨-, -, hout, -⟩ := writeEv_frame hw
    exact .inl hout
  | pop _ hw =>
    obtain ⟨-, -, hout, -⟩ := writeEv_frame hw
    exact .inl hout
  | input _ _ hw =>
    obtain ⟨-, -, hout, -⟩ := writeEv_frame hw
    exact .inl hout
  | _ => exact .inl rfl

/-- Settles O38: of the three things a step can do, only an effect touches the queue. -/
theorem onlyInConsumesInput : Obligations.OnlyInConsumesInput := by
  intro s t h
  rcases step_cases h with ⟨rfl, -⟩ | ⟨r, -, rfl⟩ | ⟨u, ev, next, heffect, rfl, -⟩
  · exact .inl rfl
  · exact .inl rfl
  · rw [retire_inStream]
    exact heffect.inStream

/-- Settles O39: of the three things a step can do, only an effect touches the output stream. -/
theorem onlyOutAppendsOutput : Obligations.OnlyOutAppendsOutput := by
  intro s t h
  rcases step_cases h with ⟨rfl, -⟩ | ⟨r, -, rfl⟩ | ⟨u, ev, next, heffect, rfl, -⟩
  · exact .inl rfl
  · exact .inl rfl
  · rw [retire_outStream]
    exact heffect.outStream

/-- Where the strategy does not trip, only its state is written (R145). -/
theorem sampleWatchdog_of_none {wd : WatchdogStrategy W D} {ev : Retirement} {u : Plugged.State W D}
    (h : (wd.sample u.wd (snapshot ev u)).2 = none) :
    sampleWatchdog wd ev u = u.setWatchdog (wd.sample u.wd (snapshot ev u)).1 := by
  simp only [sampleWatchdog, h]

/-- Where the strategy trips, its state is written and the trip raised (R141, R145). -/
theorem sampleWatchdog_of_some {wd : WatchdogStrategy W D} {ev : Retirement} {u : Plugged.State W D}
    {diagnostic : D} (h : (wd.sample u.wd (snapshot ev u)).2 = some diagnostic) :
    sampleWatchdog wd ev u =
      (u.setWatchdog (wd.sample u.wd (snapshot ev u)).1).raise (.watchdogTripped diagnostic) := by
  simp only [sampleWatchdog, h]

section
variable (out : List Word) (diag : List DiagEvent)

/-- A sample does not depend on the output records: the strategy's snapshot has none of them (R145). -/
theorem sampleWatchdog_withHistory (wd : WatchdogStrategy W D) (ev : Retirement)
    (u : Plugged.State W D) :
    sampleWatchdog wd ev (u.withHistory out diag) = (sampleWatchdog wd ev u).withHistory out diag := by
  cases h : (wd.sample u.wd (snapshot ev u)).2 with
  | none =>
    rw [sampleWatchdog_of_none h, sampleWatchdog_of_none (u := u.withHistory out diag) h]
    rfl
  | some diagnostic =>
    rw [sampleWatchdog_of_some h, sampleWatchdog_of_some (u := u.withHistory out diag) h]
    rfl

/-- A retirement does not depend on the output records (R135). -/
theorem retire_withHistory (wd : WatchdogStrategy W D) (next : Word) (ev : Retirement)
    (u : Plugged.State W D) :
    retire wd next ev (u.withHistory out diag) = (retire wd next ev u).withHistory out diag := by
  have hparams : (u.withHistory out diag).params = u.params := rfl
  unfold retire
  rw [hparams]
  split
  · exact sampleWatchdog_withHistory out diag wd ev (u.setPc next)
  · rfl

/-- The same ending, concluded with words already on the output records, is the same outcome with those
words in front. -/
theorem SameEnding.conclude_withHistory {e e' : Ending W D}
    (h : SameEnding (Plugged.State.withHistory out diag) e e') (wd : WatchdogStrategy W D)
    (s : Plugged.State W D) :
    conclude wd (s.withHistory out diag) e' =
      mapNext (Plugged.State.withHistory out diag) (conclude wd s e) := by
  cases h with
  | halt => rfl
  | fault r q hp hrq =>
    cases FaultRecord.erase_inj hp hrq
    rfl
  | retire next ev u => exact congrArg Host.Outcome.next (retire_withHistory out diag wd next ev u)
  | hold => rfl

end

/-- Settles O40: a terminal state answers by its engine state and reason, and a running engine's step ends
the same way with words already on the records. -/
theorem outputRecordsAreNeverRead : Obligations.OutputRecordsAreNeverRead := by
  intro out diag s
  have hengine : (s.withHistory out diag).engine = s.engine := rfl
  cases hs : s.engine with
  | running =>
    rw [step_running hs, step_running (hengine.trans hs)]
    exact (stepEnding_same (commutes_withHistory out diag) s).conclude_withHistory out diag _ s
  | halted =>
    rw [(terminalStatesHaveNoStep s).1 hs, (terminalStatesHaveNoStep _).1 (hengine.trans hs)]
    rfl
  | faulted =>
    rw [(terminalStatesHaveNoStep s).2 hs, (terminalStatesHaveNoStep _).2 (hengine.trans hs)]
    rfl

end Sys2Proof.Machine
end

section
/-! PROOF. The watchdog's signature (spec/45_watchdog.md R136 to R138): each counter moves with its part of
the state, and a retirement with the quiet record, at which the signature repeats, changes none of what a
run depends on beside the pc (`Effect.sameData_of_quiet`). -/

namespace Sys2Proof.Machine

variable {W D : Type}

/-! ## Quiet retirements -/

/-- Where the watchdog is enabled a retirement takes one sample of the default strategy (R140). -/
theorem retire_wd_of_enabled {u : State} (h : u.params.wdEnable = true) (limit : Nat) (next : Word)
    (ev : Retirement) :
    (retire (defaultWatchdog limit) next ev u).wd = (wdSample limit u.wd ev).1 := by
  have hconsulted := retire_consulted (defaultWatchdog limit) next ev u u rfl rfl rfl rfl
  rw [Consulted, if_pos h] at hconsulted
  exact hconsulted.1

/-- What a run depends on beside the pc: registers, memory, stack, input queue and parameters. -/
structure SameData (s t : Plugged.State W D) : Prop where
  regs     : t.regs = s.regs
  mem      : t.mem = s.mem
  stack    : t.stack = s.stack
  inStream : t.inStream = s.inStream
  params   : t.params = s.params

theorem SameData.refl (s : Plugged.State W D) : SameData s s := ⟨rfl, rfl, rfl, rfl, rfl⟩

theorem SameData.symm {s t : Plugged.State W D} (h : SameData s t) : SameData t s :=
  ⟨h.regs.symm, h.mem.symm, h.stack.symm, h.inStream.symm, h.params.symm⟩

theorem SameData.trans {s t u : Plugged.State W D} (h : SameData s t) (k : SameData t u) :
    SameData s u :=
  ⟨k.regs.trans h.regs, k.mem.trans h.mem, k.stack.trans h.stack, k.inStream.trans h.inStream,
    k.params.trans h.params⟩

/-- A retirement itself changes the pc and the watchdog only. -/
theorem sameData_retire (wd : WatchdogStrategy W D) (next : Word) (ev : Retirement)
    (u : Plugged.State W D) : SameData u (retire wd next ev u) :=
  ⟨retire_regs .., retire_mem .., retire_stack .., retire_inStream .., retire_params ..⟩

/-- A write with a quiet record changes nothing: it stores the Word that is there already (R137). -/
theorem sameData_of_writeEv_quiet {o : Operand} {v : Word} {s u : Plugged.State W D} {ev : Retirement}
    (hm : Memory.wf s.mem) (h : writeEv o v s = some (u, ev)) (hquiet : ev = evNone) :
    SameData s u := by
  obtain ⟨-, hstack, -, hin, -, -, -, -, hparams⟩ := writeEv_frame h
  rw [writeEv_record hm h] at hquiet
  simp only [changeRecord, evNone, Retirement.mk.injEq, decide_eq_false_iff_not, not_not] at hquiet
  obtain ⟨hregs, hmem, -⟩ := hquiet
  exact ⟨hregs, hmem, hstack, hin, hparams⟩

/-- An effect with a quiet record changes no register, memory word, stack or input (R137): a stack change
and an `in` always show in the record. -/
theorem Effect.sameData_of_quiet {d : Decoded} {s u : Plugged.State W D} {ev : Retirement}
    (h : Effect d s u ev) (hm : Memory.wf s.mem) (hquiet : ev = evNone) : SameData s u := by
  cases h with
  | none => exact .refl s
  | emit => exact ⟨rfl, rfl, rfl, rfl, rfl⟩
  | diag => exact ⟨rfl, rfl, rfl, rfl, rfl⟩
  | push => cases hquiet
  | drop => cases hquiet
  | write hw => exact sameData_of_writeEv_quiet hm hw hquiet
  | pop => cases congrArg Retirement.stk hquiet
  | @input o => cases o <;> cases hquiet

/-- Settles O56: a halt and a fault change nothing of these, and a retirement at which the signature
repeats has the quiet record. -/
theorem quietStepChangesNothing : Obligations.QuietStepChangesNothing := by
  intro s t hm henabled h hsig
  rcases step_cases h with ⟨rfl, -⟩ | ⟨r, -, rfl⟩ | ⟨u, ev, next, heffect, rfl, -⟩
  · exact ⟨rfl, rfl, rfl, rfl⟩
  · exact ⟨rfl, rfl, rfl, rfl⟩
  · obtain ⟨-, hwd, -, -, hparams⟩ := heffect.frame
    have hquiet : ev = evNone := by
      rw [Plugged.State.wdSig, retire_wd_of_enabled (hparams ▸ henabled), hwd] at hsig
      exact (nextSignature_eq_self ev s.wdSig).1 hsig
    have hdata := (heffect.sameData_of_quiet hm hquiet).trans
      (sameData_retire (defaultWatchdog s.params.wdLimit) next ev u)
    exact ⟨hdata.regs, hdata.mem, hdata.stack, hdata.inStream⟩

/-- Settles O55: a halt and a fault move no counter and change nothing, a retirement samples the record of
what its effect changed. -/
theorem signatureCountsChanges : Obligations.SignatureCountsChanges := by
  intro i s t hm henabled hi h
  rw [exec_eq] at h
  rcases (ending_ends i s).cases_next h with
    ⟨rfl, -⟩ | ⟨r, -, rfl⟩ | ⟨u, ev, next, heffect, rfl, -⟩
  · simp
  · simp
  · obtain ⟨-, -, hsampled⟩ := heffect.retired next
    have hrecord : ev = changeRecord s u :=
      heffect.record hm fun a ha => hi a (Decoded.instr.inj ha)
    rw [Sampled, if_pos henabled] at hsampled
    obtain ⟨hreg, hmem, hstk, -⟩ := hsampled
    rw [hreg, hmem, hstk, hrecord]
    simp [changeRecord, ite_not]

end Sys2Proof.Machine
end

section
/-! PROOF. What a watchdog trip proves (spec/45_watchdog.md R143). A run up to a trip ends in `WD_LIMIT`
quiet retirements (`run_ends_quiet`), at all of which the machine differs in its pc, its output records and
its watchdog only. With more of them than there are addresses one pc is met twice (`QuietRun.revisits`), so
without the watchdog the machine repeats what lies between (`running_of_loop`). -/

namespace Sys2Proof.Machine

variable {W D : Type}

/-! ## Runs of the machine -/

/-- Running is running on from where a run has arrived. -/
theorem run_add_eq_next_iff {m n : Nat} {s t : State} :
    core.run (m + n) s = .next t ↔ ∃ u : State, core.run m s = .next u ∧ core.run n u = .next t := by
  induction m generalizing s with
  | zero =>
    rw [Nat.zero_add]
    exact ⟨fun h => ⟨s, rfl, h⟩, fun ⟨u, hu, h⟩ => by cases hu; exact h⟩
  | succ m ih =>
    rw [Nat.add_right_comm]
    simp only [Host.Core.run]
    cases core.step s with
    | next s' => exact ih
    | fault r => exact ⟨nofun, nofun⟩
    | refused r => exact ⟨nofun, nofun⟩

/-- A run of one step is the step. -/
theorem run_one_eq_next_iff {s t : State} : core.run 1 s = .next t ↔ step s = .next t := by
  have hstep : core.step s = step s := rfl
  simp only [Host.Core.run, hstep]
  cases step s <;> rfl

/-- The last step of a run. -/
theorem run_succ_eq_next_iff {k : Nat} {s t : State} :
    core.run (k + 1) s = .next t ↔ ∃ u : State, core.run k s = .next u ∧ step u = .next t := by
  simp only [run_add_eq_next_iff, run_one_eq_next_iff]

/-- What every step keeps, a run keeps. -/
theorem run_keeps {P : State → Prop} (hstep : ∀ s t, P s → step s = .next t → P t) {k : Nat}
    {s t : State} (hs : P s) (h : core.run k s = .next t) : P t := by
  induction k generalizing t with
  | zero => cases h; exact hs
  | succ k ih =>
    obtain ⟨u, hu, hlast⟩ := run_succ_eq_next_iff.1 h
    exact hstep u t (ih hu) hlast

/-- A run keeps the parameters (R19). -/
theorem run_params {k : Nat} {s t : State} (h : core.run k s = .next t) : t.params = s.params :=
  run_keeps (P := fun x => x.params = s.params)
    (fun x y hx hstep => (noStepChangesParameters x y hstep).trans hx) rfl h

/-! ## A trip ends a quiet run -/

/-- `s` retired quietly, to `t`: its data is as before, and its instruction stood in memory. -/
structure QuietStep (s t : State) : Prop where
  step     : step s = .next t
  data     : SameData s t
  pcExists : s.pc.toNat < 32768

/-- From `s` the machine retires quietly `n` times, to `t`. -/
inductive QuietRun (s : State) : Nat → State → Prop
  | refl : QuietRun s 0 s
  | snoc {n : Nat} {t u : State} (h : QuietRun s n t) (hstep : QuietStep t u) : QuietRun s (n + 1) u

theorem QuietRun.run {s t : State} {n : Nat} (h : QuietRun s n t) : core.run n s = .next t := by
  induction h with
  | refl => rfl
  | snoc _ hstep ih => exact run_succ_eq_next_iff.2 ⟨_, ih, hstep.step⟩

theorem QuietRun.data {s t : State} {n : Nat} (h : QuietRun s n t) : SameData s t := by
  induction h with
  | refl => exact .refl s
  | snoc _ hstep ih => exact ih.trans hstep.data

/-- At each of its retirements a quiet run stands at a pc in memory, with the data it began with. -/
theorem QuietRun.visits {s t : State} {n i : Nat} (h : QuietRun s n t) (hi : i < n) :
    ∃ u : State, core.run i s = .next u ∧ SameData s u ∧ u.engine = .running ∧
      u.pc.toNat < 32768 := by
  induction h with
  | refl => exact absurd hi (Nat.not_lt_zero i)
  | @snoc n t _ h hstep ih =>
    rcases Nat.lt_succ_iff_lt_or_eq.1 hi with hi | rfl
    · exact ih hi
    · exact ⟨t, h.run, h.data, (step_next hstep.step).1, hstep.pcExists⟩

/-- A step that leaves the engine Running, or that trips the watchdog, retires an effect. -/
theorem step_retires {s t : State} (hs : Invariant s) (h : step s = .next t)
    (ht : t.engine = .running ∨ t.tripped) :
    ∃ u ev next, Effect (fetch s) s u ev ∧
      t = retire (defaultWatchdog s.params.wdLimit) next ev u := by
  obtain ⟨hrun, -⟩ := step_next h
  rcases step_cases h with ⟨rfl, -⟩ | ⟨r, hr, rfl⟩ | ⟨u, ev, next, heffect, rfl, -⟩
  · rcases ht with hengine | ⟨diagnostic, htrip⟩
    · cases hengine
    · cases (hs.reason_eq_none (by rw [hrun]; decide)).symm.trans htrip
  · rcases ht with hengine | htrip
    · cases hengine
    · exact absurd htrip (not_tripped_raise hr)
  · exact ⟨u, ev, next, heffect, rfl⟩

/-- Such a step fetched its opcode word from memory (R71). -/
theorem pc_lt_of_step_retires {s t : State} (h : step s = .next t)
    (ht : t.engine = .running ∨ t.tripped) : s.pc.toNat < 32768 := by
  by_contra hpc
  obtain ⟨t', ht', hraised⟩ :=
    opcodeFetchBeyondMemoryFaults s (step_next h).1 (Nat.le_of_not_lt hpc)
  cases h.symm.trans ht'
  rw [hraised] at ht
  rcases ht with hengine | htrip
  · cases hengine
  · exact not_tripped_raise (s := s) rfl htrip

/-- A retirement sets the run counter to 0, or is quiet and counts it one up (R140). -/
theorem step_counts {s t : State} (hs : Invariant s) (henabled : s.params.wdEnable = true)
    (h : step s = .next t) (ht : t.engine = .running ∨ t.tripped) :
    t.wdRun = 0 ∨ (t.wdRun = s.wdRun + 1 ∧ QuietStep s t) := by
  obtain ⟨u, ev, next, heffect, rfl⟩ := step_retires hs h ht
  obtain ⟨-, hwd, -, -, hparams⟩ := heffect.frame
  have hcount : (retire (defaultWatchdog s.params.wdLimit) next ev u).wdRun =
      if nextSignature ev s.wdSig = s.wdSig then s.wdRun + 1 else 0 := by
    rw [Plugged.State.wdRun, retire_wd_of_enabled (hparams ▸ henabled), hwd]
    rfl
  rw [hcount]
  split
  · next hsig =>
    have hquiet := (nextSignature_eq_self ev s.wdSig).1 hsig
    exact .inr ⟨rfl, h,
      (heffect.sameData_of_quiet hs.memWf hquiet).trans (sameData_retire _ next ev u),
      pc_lt_of_step_retires h ht⟩
  · exact .inl rfl

/-- A run from a run counter of 0 ends in as many quiet retirements as the counter says. -/
theorem run_ends_quiet {k : Nat} {s t : State} (hs : Invariant s)
    (henabled : s.params.wdEnable = true) (hzero : s.wdRun = 0) (h : core.run k s = .next t)
    (ht : t.engine = .running ∨ t.tripped) :
    ∃ (m : Nat) (v : State), core.run m s = .next v ∧ QuietRun v t.wdRun t := by
  induction k generalizing t with
  | zero =>
    cases h
    exact ⟨0, s, rfl, hzero ▸ .refl⟩
  | succ k ih =>
    obtain ⟨u, hu, hlast⟩ := run_succ_eq_next_iff.1 h
    have huInv : Invariant u := run_keeps stepKeepsInvariant hs hu
    rcases step_counts huInv (run_params hu ▸ henabled) hlast ht with hcount | ⟨hcount, hquiet⟩
    · exact ⟨k + 1, t, h, hcount ▸ .refl⟩
    · obtain ⟨m, v, hv, hrun⟩ := ih hu (.inl (step_next hlast).1)
      exact ⟨m, v, hv, hcount ▸ hrun.snoc hquiet⟩

/-- More quiet retirements than there are addresses meet one pc twice (R143). -/
theorem QuietRun.revisits {s t : State} {n : Nat} (h : QuietRun s n t) (hn : 32769 ≤ n) :
    ∃ (i p : Nat) (a b : State), 0 < p ∧ core.run i s = .next a ∧ core.run p a = .next b ∧
      a.engine = .running ∧ b.engine = .running ∧ a.pc = b.pc ∧ SameData a b := by
  choose u hu hdata hrunning hpc using
    fun i : Fin 32769 => h.visits (Nat.lt_of_lt_of_le i.isLt hn)
  obtain ⟨x, y, hne, hxy⟩ := Fintype.exists_ne_map_eq_of_card_lt
    (fun i => (⟨(u i).pc.toNat, hpc i⟩ : Fin 32768)) (by simp only [Fintype.card_fin]; decide)
  have hnat : (u x).pc.toNat = (u y).pc.toNat := Fin.mk.inj hxy
  have hpceq : (u x).pc = (u y).pc := BitVec.eq_of_toNat_eq hnat
  wlog hlt : x < y generalizing x y
  · exact this y x hne.symm hxy.symm hnat.symm hpceq.symm (lt_of_le_of_ne (not_lt.1 hlt) hne.symm)
  obtain ⟨p, hp⟩ := Nat.exists_eq_add_of_lt (Fin.lt_def.1 hlt)
  obtain ⟨a, ha, hab⟩ := run_add_eq_next_iff.1 (Nat.add_assoc x.val p 1 ▸ hp ▸ hu y)
  cases (hu x).symm.trans ha
  exact ⟨x, p + 1, u x, u y, Nat.succ_pos p, hu x, hab, hrunning x, hrunning y, hpceq,
    (hdata x).symm.trans (hdata y)⟩

/-! ## The run without the watchdog -/

/-- The machine with the watchdog switched off, its registers at fixed values. -/
def Plugged.State.unwatched (sig : Signature) (limit : Nat) (s : Plugged.State WdRegisters Signature) :
    Plugged.State WdRegisters Signature :=
  replug ⟨sig, 0⟩ none false limit s

/-- Switched off at a state with no reason, that is the state the claim starts from. -/
theorem withWatchdog_eq_unwatched {s : State} (h : s.reason = none) (sig : Signature) (limit : Nat) :
    s.withWatchdog sig 0 false limit = s.unwatched sig limit := by
  rw [Plugged.State.unwatched, replug, ← h]
  rfl

/-- What retires without a trip, retires to the same state with the watchdog switched off. -/
theorem retire_unwatched (sig : Signature) (limit : Nat) {u : State}
    (wd vd : WatchdogStrategy WdRegisters Signature) (next : Word) (ev : Retirement)
    (h : (retire wd next ev u).engine = .running) :
    retire vd next ev (u.unwatched sig limit) = (retire wd next ev u).unwatched sig limit := by
  have hoff : retire vd next ev (u.unwatched sig limit) = (u.setPc next).unwatched sig limit := rfl
  rw [hoff]
  exact retire_elim wd next ev u
    (P := fun t => t.engine = .running → (u.setPc next).unwatched sig limit = t.unwatched sig limit)
    (fun _ => rfl) (fun _ _ => rfl) nofun h

/-- A step that leaves the engine Running is the same step with the watchdog switched off (R135). -/
theorem step_unwatched (sig : Signature) (limit : Nat) {s t : State} (h : step s = .next t)
    (ht : t.engine = .running) :
    step (s.unwatched sig limit) = .next (t.unwatched sig limit) := by
  obtain ⟨hrun, hfinish⟩ := step_next h
  have hrun' : (s.unwatched sig limit).engine = .running := hrun
  have hsame : SameEnding (Plugged.State.unwatched sig limit) (stepEnding s)
      (stepEnding (s.unwatched sig limit)) := stepEnding_same (commutes_replug _ _ _ _) s
  rw [step_running hrun']
  generalize stepEnding s = e at hfinish hsame
  generalize stepEnding (s.unwatched sig limit) = e' at hsame
  cases hsame with
  | halt => cases hfinish; cases ht
  | fault => cases hfinish; cases ht
  | retire next ev u =>
    cases hfinish
    exact congrArg Host.Outcome.next (retire_unwatched sig limit _ _ next ev ht)
  | hold => cases hfinish

/-- The same for a run. -/
theorem run_unwatched (sig : Signature) (limit : Nat) {k : Nat} {s t : State}
    (h : core.run k s = .next t) (ht : t.engine = .running) :
    core.run k (s.unwatched sig limit) = .next (t.unwatched sig limit) := by
  induction k generalizing t with
  | zero => cases h; rfl
  | succ k ih =>
    obtain ⟨u, hu, hlast⟩ := run_succ_eq_next_iff.1 h
    exact run_succ_eq_next_iff.2
      ⟨_, ih hu (step_next hlast).1, step_unwatched sig limit hlast ht⟩

/-! ## A loop never ends -/

/-- A state without its output records. -/
def Plugged.State.bare (s : Plugged.State W D) : Plugged.State W D :=
  { s with outStream := [], diagStream := [] }

/-- A step from a state that differs in the output records only differs in these only. -/
theorem step_of_bare_eq {s s' t : State} (hs : s'.bare = s.bare) (h : step s = .next t) :
    ∃ t' : State, step s' = .next t' ∧ t'.bare = t.bare := by
  have hrecords : ∀ x : State, x = x.bare.withHistory x.outStream x.diagStream := fun x => by
    simp only [Plugged.State.bare, Plugged.State.withHistory, List.append_nil]
  have hbare : ∀ x : State, step x =
      mapNext (Plugged.State.withHistory x.outStream x.diagStream) (step x.bare) := fun x => by
    rw [← outputRecordsAreNeverRead, ← hrecords]
  rw [hbare s] at h
  rw [hbare s', hs]
  cases hstep : step s.bare with
  | next u =>
    rw [hstep] at h
    cases h
    exact ⟨_, rfl, rfl⟩
  | fault r => rw [hstep] at h; cases h
  | refused r => rw [hstep] at h; cases h

/-- The same for a run. -/
theorem run_of_bare_eq {k : Nat} {s s' t : State} (hs : s'.bare = s.bare)
    (h : core.run k s = .next t) : ∃ t' : State, core.run k s' = .next t' ∧ t'.bare = t.bare := by
  induction k generalizing t with
  | zero => cases h; exact ⟨s', rfl, hs⟩
  | succ k ih =>
    obtain ⟨u, hu, hlast⟩ := run_succ_eq_next_iff.1 h
    obtain ⟨u', hu', hbare⟩ := ih hu
    obtain ⟨t', ht', hbare'⟩ := step_of_bare_eq hbare hlast
    exact ⟨t', run_succ_eq_next_iff.2 ⟨u', hu', ht'⟩, hbare'⟩

/-- A run that returns to its start, but for the output records, can be repeated. -/
theorem run_loop {p : Nat} {a b : State} (h : core.run p a = .next b) (hab : b.bare = a.bare)
    (q : Nat) {s : State} (hs : s.bare = a.bare) : ∃ t : State, core.run (q * p) s = .next t := by
  induction q generalizing s with
  | zero => exact ⟨s, by rw [Nat.zero_mul]; rfl⟩
  | succ q ih =>
    obtain ⟨s', hs', hbare⟩ := run_of_bare_eq hs h
    obtain ⟨t, ht⟩ := ih (hbare.trans hab)
    rw [Nat.succ_mul, Nat.add_comm]
    exact ⟨t, run_add_eq_next_iff.2 ⟨s', hs', ht⟩⟩

/-- Where a run arrives at a loop, it is still Running after every number of steps. -/
theorem running_of_loop {m p : Nat} {s a b : State} (hm : core.run m s = .next a) (hp : 0 < p)
    (h : core.run p a = .next b) (hab : b.bare = a.bare) (n : Nat) :
    ∃ u : State, core.run n s = .next u ∧ u.engine = .running := by
  obtain ⟨t, ht⟩ := run_loop h hab (n + 1) (s := a) rfl
  have hlong := run_add_eq_next_iff.2 ⟨a, hm, ht⟩
  have hle : n + 1 ≤ m + (n + 1) * p :=
    (Nat.le_mul_of_pos_right _ hp).trans (Nat.le_add_left _ _)
  obtain ⟨c, hc⟩ := Nat.exists_eq_add_of_le hle
  rw [hc] at hlong
  obtain ⟨v, hv, -⟩ := run_add_eq_next_iff.1 hlong
  obtain ⟨u, hu, hlast⟩ := run_succ_eq_next_iff.1 hv
  exact ⟨u, hu, (step_next hlast).1⟩

/-- Running states with the same pc and data differ in the output records only, once the watchdog is
switched off. -/
theorem unwatched_bare_eq (sig : Signature) (limit : Nat) {a b : State} (ha : a.engine = .running)
    (hb : b.engine = .running) (hpc : a.pc = b.pc) (h : SameData a b) :
    (b.unwatched sig limit).bare = (a.unwatched sig limit).bare := by
  simp only [Plugged.State.bare, Plugged.State.unwatched, replug, ha, hb, hpc, h.regs, h.mem,
    h.stack, h.inStream, h.params]

/-- Settles O60: the trip ends at least 32769 quiet retirements, in which a pc is met twice; the run without
the watchdog comes to the same loop. -/
theorem watchdogTripMeansNonTermination : Obligations.WatchdogTripMeansNonTermination := by
  intro k s t hs hrun hzero henabled hlimit hk htrip
  have htInv : Invariant t := run_keeps stepKeepsInvariant hs hk
  have hcount : 32769 ≤ t.wdRun := by
    obtain ⟨diagnostic, hreason⟩ := htrip
    rw [(htInv.tripSig diagnostic hreason).2, run_params hk]
    exact hlimit
  obtain ⟨m, v, hv, hquiet⟩ := run_ends_quiet hs henabled hzero hk (.inr htrip)
  obtain ⟨i, p, a, b, hp, ha, hab, harun, hbrun, hpc, hdata⟩ := hquiet.revisits hcount
  have hsa : core.run (m + i) s = .next a := run_add_eq_next_iff.2 ⟨v, hv, ha⟩
  rw [withWatchdog_eq_unwatched (hs.reason_eq_none (by rw [hrun]; decide))]
  exact running_of_loop (run_unwatched _ _ hsa harun) hp (run_unwatched _ _ hab hbrun)
    (unwatched_bare_eq _ _ harun hbrun hpc hdata)

end Sys2Proof.Machine
end
